-- ==== Sys2Proof/Word.lean ====
section
/-! DEFINITION. The words of the hardware: bytes, palette words, command words, and the colour triple
(spec 00_scope.md R12, 10_state.md R25). Every quantity is unsigned (R11). -/

namespace Sys2Proof

/-- One byte of the ROM image, of the bitmap, or of a colour channel. -/
abbrev Byte := BitVec 8

/-- One palette word: 16 bits, of which 15 carry colour (10_state.md R29). -/
abbrev Hword := BitVec 16

/-- A command word, a response word, or a value of the register read port (00_scope.md R10). -/
abbrev Word := BitVec 32

/-- One Color: "a value type of three 8-bit channels (r,g,b)" (10_state.md R25). It is kept as a triple and packed
into a number only at the ports (R26). -/
structure Color where
  r : Byte
  g : Byte
  b : Byte
  deriving DecidableEq, Repr

end Sys2Proof
end

