-- ==== Sys2Proof/Syntax.lean ====
section
/-! DEFINITION. The eight commands, one constructor per row of spec/opcode_table.json (spec 30_encoding.md R62). An operand
has the width of its field, so an operand outside its range cannot be written down (R65: "the field width is the check"). -/

namespace Sys2Proof

/-- A command of the block. -/
inductive Instr where
  /-- EXPAND w: expand one palette word into `COLOR` (40_palette_expander.md R93). -/
  | expand (w : BitVec 16)
  /-- UNPACK: decode the whole of `BITMAP` onto the canvas (41_bitmap_tile_decoder.md R107). -/
  | unpack
  /-- DRAWPX x, y: paint one logical pixel, column x and row y, in the colour held in `COLOR` (42_pixel_rasterizer.md R122). -/
  | drawpx (x y : BitVec 5)
  /-- RESOLVE: read the tile-offset pointer (43_rom_fetch.md R141). -/
  | resolve
  /-- SLICEB: copy the 512-byte bitmap region into `BITMAP` (R142). -/
  | sliceb
  /-- SLICEP: copy the 16-entry palette region into `PALETTE` (R143). -/
  | slicep
  /-- CLEAR s: set the scale and make a new, all-white canvas (42_pixel_rasterizer.md R123). -/
  | clear (s : BitVec 8)
  /-- EXTRACT s: decode the icon of the attached image onto a new canvas of scale s (44_extract_sequence.md R160). -/
  | extract (s : BitVec 8)
  deriving DecidableEq, Repr

end Sys2Proof
end

