-- ==== Sys2Proof/Decode.lean ====
section
/-! DEFINITION. The decoder and, after it, the encoder of command words (spec 30_encoding.md R60 to R67, R70, R80). Decoding
is total and strict: a word of no row is rejected, by the name of what is wrong with it. -/

namespace Sys2Proof

/-- Why a word is no command (R70). Both reasons raise `IllegalCommand`. -/
inductive Reject where
  /-- The opcode is 0x00 or 0x09 to 0xFF. -/
  | unassignedOpcode (opcode : BitVec 8)
  /-- The opcode is assigned and a reserved bit of its format is 1. -/
  | reservedBitSet (opcode : BitVec 8)
  deriving DecidableEq, Repr

/-- Bits 31 to 24 (R60). -/
def opcodeOf (cmd : Word) : BitVec 8 := cmd.extractLsb' 24 8

/-- Operand `w` of format W, bits 15 to 0 (R64). -/
def fieldW (cmd : Word) : BitVec 16 := cmd.extractLsb' 0 16

/-- Operand `x` of format P, bits 4 to 0 (R65). -/
def fieldX (cmd : Word) : BitVec 5 := cmd.extractLsb' 0 5

/-- Operand `y` of format P, bits 9 to 5 (R65). -/
def fieldY (cmd : Word) : BitVec 5 := cmd.extractLsb' 5 5

/-- Operand `s` of format S, bits 7 to 0 (R66). -/
def fieldS (cmd : Word) : BitVec 8 := cmd.extractLsb' 0 8

/-- The reserved bits of format N, bits 23 to 0 (R63). -/
def reservedN (cmd : Word) : BitVec 24 := cmd.extractLsb' 0 24

/-- The reserved bits of format W, bits 23 to 16 (R64). -/
def reservedW (cmd : Word) : BitVec 8 := cmd.extractLsb' 16 8

/-- The reserved bits of format P, bits 23 to 10 (R65). -/
def reservedP (cmd : Word) : BitVec 14 := cmd.extractLsb' 10 14

/-- The reserved bits of format S, bits 23 to 8 (R66). -/
def reservedS (cmd : Word) : BitVec 16 := cmd.extractLsb' 8 16

/-- Accept `i` when the reserved bits of its format are all 0, else reject (R60, R70). -/
def strict {n : Nat} (opcode : BitVec 8) (reserved : BitVec n) (i : Instr) : Except Reject Instr :=
  if reserved = 0#n then .ok i else .error (.reservedBitSet opcode)

/-- The decoder (R62, R70): by opcode, then by the reserved bits of the opcode's format. -/
def decode (cmd : Word) : Except Reject Instr :=
  let op := opcodeOf cmd
  if op = 0x01#8 then strict op (reservedW cmd) (.expand (fieldW cmd))
  else if op = 0x02#8 then strict op (reservedN cmd) .unpack
  else if op = 0x03#8 then strict op (reservedP cmd) (.drawpx (fieldX cmd) (fieldY cmd))
  else if op = 0x04#8 then strict op (reservedN cmd) .resolve
  else if op = 0x05#8 then strict op (reservedN cmd) .sliceb
  else if op = 0x06#8 then strict op (reservedN cmd) .slicep
  else if op = 0x07#8 then strict op (reservedS cmd) (.clear (fieldS cmd))
  else if op = 0x08#8 then strict op (reservedS cmd) (.extract (fieldS cmd))
  else .error (.unassignedOpcode op)

/-- A word of format N (R63). -/
def wordN (opcode : BitVec 8) : Word := opcode ++ 0#24

/-- A word of format W (R64). -/
def wordW (opcode : BitVec 8) (w : BitVec 16) : Word := opcode ++ 0#8 ++ w

/-- A word of format P (R65). -/
def wordP (opcode : BitVec 8) (x y : BitVec 5) : Word := opcode ++ 0#14 ++ y ++ x

/-- A word of format S (R66). -/
def wordS (opcode : BitVec 8) (s : BitVec 8) : Word := opcode ++ 0#16 ++ s

/-- The encoder: the one word of a command (R62 to R66). -/
def encode : Instr → Word
  | .expand w => wordW 0x01#8 w
  | .unpack => wordN 0x02#8
  | .drawpx x y => wordP 0x03#8 x y
  | .resolve => wordN 0x04#8
  | .sliceb => wordN 0x05#8
  | .slicep => wordN 0x06#8
  | .clear s => wordS 0x07#8 s
  | .extract s => wordS 0x08#8 s

/-- The command word whose bits are `w`, numbered as spec/opcode_table.json numbers them, of an entry of `nbits` bits; none
where the number has more bits than the command port (R80: one fixed length of 32 bits). -/
def tableWord (nbits w : Nat) : Option Word :=
  let bits := w % 2 ^ nbits
  if bits < 2 ^ 32 then some (BitVec.ofNat 32 bits) else none

/-- What the decoder reads from an entry of the opcode table; none where it rejects the word. -/
def decodeTableWord (nbits w : Nat) : Option Instr :=
  match tableWord nbits w with
  | none => none
  | some cmd =>
    match decode cmd with
    | .ok i => some i
    | .error _ => none

end Sys2Proof
end

