-- ==== Sys2Proof/Config.lean ====
section
/-! DEFINITION. The sixteen format constants of the hardware (spec 00_scope.md R8, 10_state.md R35), under the names the spec
gives them. All are fixed; none is a run-time register. The spec leaves no value open (R13: "no rule leaves a result open"), so this file
holds no free value. -/

namespace Sys2Proof.Config

/-- ROM address of the 4-byte tile-offset pointer, 104. -/
@[simp] abbrev iconOffsetAddress : Nat := 0x68

/-- Size of the pointer in bytes. -/
@[simp] abbrev pointerBytes : Nat := 4

/-- Offset of the bitmap from the tile offset. -/
@[simp] abbrev bitmapOffset : Nat := 0x20

/-- Size of the bitmap in bytes, 512. -/
@[simp] abbrev bitmapSize : Nat := 0x200

/-- Offset of the palette from the tile offset. -/
@[simp] abbrev colorPaletteOffset : Nat := 0x220

/-- Number of palette entries. -/
@[simp] abbrev colorPaletteSize : Nat := 16

/-- Bytes per palette entry. -/
@[simp] abbrev paletteEntryBytes : Nat := 2

/-- Chunks in the bitmap. -/
@[simp] abbrev chunks : Nat := 16

/-- Bytes per chunk. -/
@[simp] abbrev chunkBytes : Nat := 32

/-- Pixels per side of the icon. -/
@[simp] abbrev iconSide : Nat := 32

/-- Pixels per side of a tile. -/
@[simp] abbrev tileSide : Nat := 8

/-- Tiles across the icon. -/
@[simp] abbrev tilesPerRow : Nat := 4

/-- Bits per colour channel in a palette word. -/
@[simp] abbrev channelBitsIn : Nat := 5

/-- Bits per colour channel in a Color. -/
@[simp] abbrev channelBitsOut : Nat := 8

/-- The colour a new canvas is filled with: white. -/
def background : Color := { r := 255#8, g := 255#8, b := 255#8 }

/-- The pixel index that is never drawn. -/
@[simp] abbrev transparentIndex : BitVec 4 := 0#4

end Sys2Proof.Config
end

