-- ==== Sys2Proof/Machine/State.lean ====
section
/-! DEFINITION. The state of the machine as plain data (spec 10_state.md R20), the environment the host keeps beside it
(notes/assumptions/1.md), the state after reset (R33), and the reasons a step can stop. -/

namespace Sys2Proof.Machine

/-- The attached ROM image (20_memory.md R40): `length` bytes, of which those listed have the listed value and every other is
0x00 (notes/assumptions/2.md). `length` is `ROM_LEN` (10_state.md R23). -/
structure Image where
  length : BitVec 32
  cells : List Host.Cell
  deriving DecidableEq, Repr

/-- No image attached: `ROM_LEN` = 0 (10_state.md R23). -/
def Image.empty : Image := { length := 0#32, cells := [] }

/-- What the host can do to the block (44_extract_sequence.md R165), but for the two read ports, which change nothing
(Machine/Ports.lean). -/
inductive HostInput where
  /-- Present a word on the command port (00_scope.md R13). -/
  | command (cmd : BitVec 32)
  /-- Attach an image of `length` bytes, given by its bytes that are not 0x00 (20_memory.md R53). -/
  | attach (length : BitVec 32) (bytes : List Host.Cell)
  /-- Apply reset (70_reset_and_hazards.md R200). -/
  | reset
  deriving DecidableEq, Repr

/-- The machine. The first seven fields are the whole state of the block (10_state.md R20); the last three are the host's side
of its ports and no state of the block (notes/assumptions/1.md). -/
structure State where
  /-- `TILE_OFFSET` (R22). -/
  tileOffset : BitVec 32
  /-- `SCALE` (R24). -/
  scale : BitVec 8
  /-- `COLOR` (R25). -/
  color : Color
  /-- `STATUS.ERR`, bits 2 to 0 of `STATUS` (R27). -/
  err : BitVec 3
  /-- `BITMAP` (R28). -/
  bitmap : Vector Byte 512
  /-- `PALETTE` (R29). -/
  palette : Vector Hword 16
  /-- `CANVAS` (R30): the cells that are not white, by linear index (20_memory.md R47; notes/assumptions/3.md). -/
  canvas : List (Nat × Color)
  /-- The attached ROM image and its length (20_memory.md R40). -/
  rom : Image
  /-- What the host is still to do, in its order, one action a step. -/
  inputs : List HostInput
  /-- The response words returned so far, the oldest first (30_encoding.md R68). -/
  responses : List (BitVec 32)
  deriving DecidableEq, Repr

/-- The machine right after reset (10_state.md R33), with no image attached, nothing asked of it yet and nothing answered
(notes/assumptions/5.md). -/
def State.reset : State where
  tileOffset := 0#32
  scale := 0#8
  color := { r := 0#8, g := 0#8, b := 0#8 }
  err := 0#3
  bitmap := Vector.replicate 512 0#8
  palette := Vector.replicate 16 0#16
  canvas := []
  rom := Image.empty
  inputs := []
  responses := []

/-- The outcome codes of a command (30_encoding.md R69). Codes 3 to 255 never occur. -/
inductive Code where
  | ok
  | outOfBounds
  | illegalCommand
  deriving DecidableEq, Repr

/-- Why a step can stop with a fault. The spec's own faults, `OutOfBounds` and `IllegalCommand`, are no stops: they are
taken inside the command and the machine goes on (60_exceptions.md R184, R187). -/
inductive Fault where
  /-- A ROM byte was asked for at an address where no byte exists (20_memory.md R40). Raised by the memory reads of RESOLVE,
  SLICEB, SLICEP and EXTRACT, were their bounds checks not to cover the read. SAFE: the machine stops. -/
  | romByteAbsent
  deriving DecidableEq, Repr

/-- Why a step can refuse. -/
inductive Refusal where
  /-- The instruction has no meaning yet. Raised by `exec`'s refused arms only (there are none). SAFE: the machine stops. -/
  | notModelled (mnemonic : String)
  deriving DecidableEq, Repr

/-- How the body of a command, or a stage of EXTRACT, ends. -/
inductive Stage where
  /-- It did all it says. -/
  | done (s : State)
  /-- It raised `c` in the state `s` (60_exceptions.md R184). -/
  | raised (c : Code) (s : State)
  /-- It stops the machine. -/
  | stopped (f : Fault)
  deriving DecidableEq, Repr

end Sys2Proof.Machine
end

