-- ==== Sys2Proof/Machine/Flags.lean ====
section
/-! DEFINITION. The one status field and the response word (spec 10_state.md R27, R36; 30_encoding.md R68, R69). -/

namespace Sys2Proof.Machine

/-- The number of an outcome code (30_encoding.md R69, 60_exceptions.md R180). -/
def codeNumber : Code → Nat
  | .ok => 0
  | .outOfBounds => 1
  | .illegalCommand => 2

/-- The code as `STATUS.ERR` holds it, bits 2 to 0 (10_state.md R27). -/
def codeErr (c : Code) : BitVec 3 := BitVec.ofNat 3 (codeNumber c)

/-- `respond(code, payload)`: the code in bits 31 to 24, the payload in bits 23 to 0 (30_encoding.md R68). -/
def respondWord (c : Code) (payload : BitVec 24) : Word := BitVec.ofNat 8 (codeNumber c) ++ payload

/-- `STATUS` as the read port shows it: `ERR` in bits 2 to 0, the rest 0 (10_state.md R27). -/
def statusWord (err : BitVec 3) : Word := err.setWidth 32

end Sys2Proof.Machine
end

