-- ==== Sys2Proof/Machine/Ops.lean ====
section
/-! DEFINITION. The named operations over memory, registers and ports: sparse memories in one canonical form, reads of the ROM
space, reads and writes of canvas cells, register writes, the end of a command, raising a fault, and the chaining of
stages. -/

namespace Sys2Proof.Machine

/-! ## Sparse memories

A memory is a list of (address, value). An address that is not listed reads as `dflt`. -/

/-- The value at address `a`. -/
def Memory.read {α : Type} (dflt : α) (m : List (Nat × α)) (a : Nat) : α :=
  match m with
  | [] => dflt
  | (b, v) :: rest => if b = a then v else Memory.read dflt rest a

/-- The memory without its entries at address `a`. -/
def Memory.erase {α : Type} (m : List (Nat × α)) (a : Nat) : List (Nat × α) :=
  m.filter fun cell => cell.1 != a

/-- The memory with an entry at address `a`, before the first entry of a higher address. -/
def Memory.insert {α : Type} (m : List (Nat × α)) (a : Nat) (v : α) : List (Nat × α) :=
  match m with
  | [] => [(a, v)]
  | (b, u) :: rest => if a < b then (a, v) :: (b, u) :: rest else (b, u) :: Memory.insert rest a v

/-- Write `v` at address `a`. Writing what an unlisted address reads as removes the entry. -/
def Memory.write {α : Type} [DecidableEq α] (dflt : α) (m : List (Nat × α)) (a : Nat) (v : α) : List (Nat × α) :=
  if v = dflt then Memory.erase m a else Memory.insert (Memory.erase m a) a v

/-- Write every listed cell, the first one first. -/
def Memory.writeAll {α : Type} [DecidableEq α] (dflt : α) (m : List (Nat × α)) (cells : List (Nat × α)) : List (Nat × α) :=
  cells.foldl (fun acc cell => Memory.write dflt acc cell.1 cell.2) m

/-- The canonical form: addresses strictly rising, and no entry equal to what an unlisted address reads as. -/
def Memory.wf {α : Type} [DecidableEq α] (dflt : α) : List (Nat × α) → Bool
  | [] => true
  | (a, v) :: rest => decide (v ≠ dflt) && rest.all (fun cell => decide (a < cell.1)) && Memory.wf dflt rest

/-- Every address of the memory is below `bound`. -/
def Memory.below {α : Type} (bound : Nat) (m : List (Nat × α)) : Bool :=
  m.all fun cell => decide (cell.1 < bound)

/-! ## The ROM space (spec 20_memory.md R40 to R44) -/

/-- `ROM_LEN` as a number. -/
def Image.size (img : Image) : Nat := img.length.toNat

/-- `ROM[a]`; none where no byte exists (R40). -/
def Image.byte? (img : Image) (a : Nat) : Option Byte :=
  if a < img.size then some (Memory.read 0#8 img.cells a) else none

/-- `MemRead(addr, n)`: n bytes at `addr`, little-endian (00_scope.md R12, 20_memory.md R42); none where a byte of them does
not exist. -/
def Image.memRead (img : Image) (addr : Nat) : Nat → Option Nat
  | 0 => some 0
  | n + 1 =>
    match img.byte? addr, img.memRead (addr + 1) n with
    | some b, some high => some (b.toNat + high <<< 8)
    | _, _ => none

/-- The values `f i` to `f (i + n - 1)` as a list of length n; none where one of them is none. -/
def gatherFrom {α : Type} (f : Nat → Option α) : (n i : Nat) → Option { l : List α // l.length = n }
  | 0, _ => some ⟨[], rfl⟩
  | n + 1, i =>
    match f i, gatherFrom f n (i + 1) with
    | some x, some l => some ⟨x :: l.1, congrArg (· + 1) l.2⟩
    | _, _ => none

/-- The values `f 0` to `f (n - 1)` as a buffer of n elements; none where one of them is none (a region is copied whole or
not at all, 43_rom_fetch.md R144). -/
def gather {α : Type} (n : Nat) (f : Nat → Option α) : Option (Vector α n) :=
  match gatherFrom f n 0 with
  | some l => some ⟨l.1.toArray, l.2⟩
  | none => none

/-- The image of `length` bytes given by a list of its bytes: a later entry for an address wins, an entry at or above the
length is no byte of the image, every byte not listed is 0x00 (notes/assumptions/2.md and 8.md). -/
def Image.ofCells (length : BitVec 32) (bytes : List Host.Cell) : Image where
  length := length
  cells := Memory.writeAll 0#8 [] (bytes.filter fun cell => decide (cell.1 < length.toNat))

/-! ## The canvas space (spec 20_memory.md R45, R47) -/

/-- `W = 32 * SCALE`: the side of the canvas in cells (10_state.md R30). -/
def canvasSide (scale : BitVec 8) : Nat := Config.iconSide * scale.toNat

/-- Element `row * W + col` of the linear view (20_memory.md R47, 42_pixel_rasterizer.md R124). -/
def cellIndex (scale : BitVec 8) (col row : Nat) : Nat := row * canvasSide scale + col

/-- The canvas with `CANVAS[col, row] <- color`. -/
def writeCell (scale : BitVec 8) (col row : Nat) (color : Color) (canvas : List (Nat × Color)) : List (Nat × Color) :=
  Memory.write Config.background canvas (cellIndex scale col row) color

/-- `CANVAS[col, row]`. -/
def readCell (scale : BitVec 8) (col row : Nat) (canvas : List (Nat × Color)) : Color :=
  Memory.read Config.background canvas (cellIndex scale col row)

/-- `pack(color)`: r in bits 23 to 16, g in bits 15 to 8, b in bits 7 to 0 (10_state.md R26). -/
def pack (color : Color) : BitVec 24 := color.r ++ color.g ++ color.b

/-! ## Register and port writes -/

/-- `TILE_OFFSET <- v`. -/
def State.setTileOffset (s : State) (v : BitVec 32) : State := { s with tileOffset := v }

/-- `SCALE <- v`. -/
def State.setScale (s : State) (v : BitVec 8) : State := { s with scale := v }

/-- `COLOR <- v`. -/
def State.setColor (s : State) (v : Color) : State := { s with color := v }

/-- `STATUS.ERR <- v`. -/
def State.setErr (s : State) (v : BitVec 3) : State := { s with err := v }

/-- Replace the whole of `BITMAP`. -/
def State.setBitmap (s : State) (v : Vector Byte 512) : State := { s with bitmap := v }

/-- Replace the whole of `PALETTE`. -/
def State.setPalette (s : State) (v : Vector Hword 16) : State := { s with palette := v }

/-- Replace the cells of `CANVAS`. -/
def State.setCanvas (s : State) (v : List (Nat × Color)) : State := { s with canvas := v }

/-- Attach another image. -/
def State.setRom (s : State) (v : Image) : State := { s with rom := v }

/-- What the host is still to do. -/
def State.setInputs (s : State) (v : List HostInput) : State := { s with inputs := v }

/-- Return a response word to the host. -/
def State.pushResponse (s : State) (v : Word) : State := { s with responses := s.responses ++ [v] }

/-! ## The end of a command, and faults -/

/-- `STATUS.ERR <- code` and `respond(code, payload)` (30_encoding.md R68, 10_state.md R27). -/
def finish (c : Code) (payload : BitVec 24) (s : State) : State :=
  (s.setErr (codeErr c)).pushResponse (respondWord c payload)

/-- `raise c`: the one way a fault is taken (60_exceptions.md R184). Nothing is saved but the code, there is no handler and no
return (R185, R187), and the payload is 0. -/
def raise (c : Code) (s : State) : State := finish c 0#24 s

/-- Run the next stage after one that is done; a stage that raised or stopped ends the chain (44_extract_sequence.md R160). -/
def Stage.andThen (x : Stage) (next : State → Stage) : Stage :=
  match x with
  | .done s => next s
  | .raised c s => .raised c s
  | .stopped f => .stopped f

/-- End a command whose payload is 0 as its body ended: `OK`, or the raised code in the state the raise left
(60_exceptions.md R184). -/
def conclude (x : Stage) : Host.Outcome State Fault Refusal :=
  match x with
  | .done s => .next (finish .ok 0#24 s)
  | .raised c s => .next (raise c s)
  | .stopped f => .fault f

end Sys2Proof.Machine
end

