-- ==== Sys2Proof/Machine/Operands.lean ====
section
/-! DEFINITION. The addressing modes and the bounds rule of the ROM space (spec 43_rom_fetch.md R140, 20_memory.md R44, R48,
R49). Effective addresses are exact sums of natural numbers; they never wrap. The operands of a command word are its fields,
already at their width (30_encoding.md R67). -/

namespace Sys2Proof.Machine

/-- Absolute: the address of the tile-offset pointer (R140). -/
def pointerAddress : Nat := Config.iconOffsetAddress

/-- Base plus displacement: the first byte of the bitmap region (R140, R48). -/
def bitmapStart (tileOffset : BitVec 32) : Nat := tileOffset.toNat + Config.bitmapOffset

/-- Base plus displacement: the first byte of the palette region (R140, R48). -/
def paletteStart (tileOffset : BitVec 32) : Nat := tileOffset.toNat + Config.colorPaletteOffset

/-- The bounds rule: the region of `size` bytes at `start` is inside the image (R49). -/
def Image.inside (img : Image) (start size : Nat) : Bool := decide (start + size ≤ img.size)

/-- The shape of every bounds check (43_rom_fetch.md R144): raise `OutOfBounds` with nothing written unless the whole region is
inside the image, else go on with what the copy reads. A copy that meets an absent byte stops the machine
(notes/assumptions/9.md). -/
def fetchRegion {α : Type} (s : State) (start size : Nat) (copy : Option α) (write : α → State) : Stage :=
  if s.rom.inside start size then
    match copy with
    | some v => .done (write v)
    | none => .stopped .romByteAbsent
  else .raised .outOfBounds s

end Sys2Proof.Machine
end

