-- ==== Sys2Proof/Machine/RomFetch.lean ====
section
/-! DEFINITION. ROM fetch front end: RESOLVE, SLICEB and SLICEP (spec 43_rom_fetch.md). -/

namespace Sys2Proof.Machine

/-- The body of RESOLVE (R141): `TILE_OFFSET <- MemRead(0x68, 4)`. -/
def resolveStage (s : State) : Stage :=
  fetchRegion s pointerAddress Config.pointerBytes (s.rom.memRead pointerAddress Config.pointerBytes)
    fun v => s.setTileOffset (BitVec.ofNat 32 v)

/-- Byte i of the bitmap region (R142). -/
def bitmapByte (img : Image) (tileOffset : BitVec 32) (i : Nat) : Option Byte := img.byte? (bitmapStart tileOffset + i)

/-- The body of SLICEB (R142): copy the 512 bytes of the bitmap region. -/
def slicebStage (s : State) : Stage :=
  fetchRegion s (bitmapStart s.tileOffset) Config.bitmapSize (gather Config.bitmapSize (bitmapByte s.rom s.tileOffset))
    s.setBitmap

/-- Entry i of the palette region, all 16 bits of it (R143). -/
def paletteEntry (img : Image) (tileOffset : BitVec 32) (i : Nat) : Option Hword :=
  match img.memRead (paletteStart tileOffset + Config.paletteEntryBytes * i) Config.paletteEntryBytes with
  | some v => some (BitVec.ofNat 16 v)
  | none => none

/-- The body of SLICEP (R143): copy the 16 words of the palette region. -/
def slicepStage (s : State) : Stage :=
  fetchRegion s (paletteStart s.tileOffset) (Config.colorPaletteSize * Config.paletteEntryBytes)
    (gather Config.colorPaletteSize (paletteEntry s.rom s.tileOffset)) s.setPalette

/-- RESOLVE (R141). -/
def execResolve (s : State) : Host.Outcome State Fault Refusal := conclude (resolveStage s)

/-- SLICEB (R142). -/
def execSliceb (s : State) : Host.Outcome State Fault Refusal := conclude (slicebStage s)

/-- SLICEP (R143). -/
def execSlicep (s : State) : Host.Outcome State Fault Refusal := conclude (slicepStage s)

end Sys2Proof.Machine
end

