-- ==== Sys2Proof/Machine/Expander.lean ====
section
/-! DEFINITION. color_palette_expander: the pure colour functions and EXPAND (spec 40_palette_expander.md). -/

namespace Sys2Proof.Machine

/-- `expand5(ch) = (ch << 3) + (ch >> 2)`, exact, at most 255 (R90). -/
def expand5 (ch : BitVec Config.channelBitsIn) : BitVec Config.channelBitsOut :=
  BitVec.ofNat Config.channelBitsOut ((ch.toNat <<< 3) + (ch.toNat >>> 2))

/-- `decodeColor(w)`: red in bits 4 to 0, green in bits 9 to 5, blue in bits 14 to 10, bit 15 unused (R91). -/
def decodeColor (w : Hword) : Color where
  r := expand5 (w.extractLsb' 0 Config.channelBitsIn)
  g := expand5 (w.extractLsb' 5 Config.channelBitsIn)
  b := expand5 (w.extractLsb' 10 Config.channelBitsIn)

/-- EXPAND w (R93): `COLOR <- decodeColor(w)`, and the response carries the packed colour. -/
def execExpand (w : BitVec 16) (s : State) : Host.Outcome State Fault Refusal :=
  .next (finish .ok (pack (decodeColor w)) (s.setColor (decodeColor w)))

end Sys2Proof.Machine
end

