-- ==== Sys2Proof/Machine/Rasterizer.lean ====
section
/-! DEFINITION. pixel_rasterizer: the block fill, DRAWPX and CLEAR (spec 42_pixel_rasterizer.md). -/

namespace Sys2Proof.Machine

/-- `draw_block(x, y, color)` with `S = SCALE`: write `color` into the S by S cells whose top-left is (x * S, y * S), rows then
columns (R120, R125). -/
def drawBlock (scale : BitVec 8) (x y : Nat) (color : Color) (canvas : List (Nat × Color)) : List (Nat × Color) :=
  (List.range scale.toNat).foldl
    (fun acc dy =>
      (List.range scale.toNat).foldl
        (fun acc dx => writeCell scale (x * scale.toNat + dx) (y * scale.toNat + dy) color acc) acc)
    canvas

/-- DRAWPX x, y (R122): paint the block of the logical pixel in `COLOR`. The transparency rule does not apply. -/
def execDrawpx (x y : BitVec 5) (s : State) : Host.Outcome State Fault Refusal :=
  conclude (.done (s.setCanvas (drawBlock s.scale x.toNat y.toNat s.color s.canvas)))

/-- The body of CLEAR (R123): set the scale and make a new canvas in which every cell is white, so that no cell is listed. -/
def clearStage (scale : BitVec 8) (s : State) : Stage := .done ((s.setScale scale).setCanvas [])

/-- CLEAR s (R123). -/
def execClear (scale : BitVec 8) (s : State) : Host.Outcome State Fault Refusal := conclude (clearStage scale s)

end Sys2Proof.Machine
end

