-- ==== Sys2Proof/Machine/TileDecoder.lean ====
section
/-! DEFINITION. bitmap tile decoder: the nibble split, the coordinate mapping, transparency, and UNPACK (spec
41_bitmap_tile_decoder.md). -/

namespace Sys2Proof.Machine

/-- The index of the left pixel: the low nibble (R102). -/
def leftIndex (byte : Byte) : BitVec 4 := byte.extractLsb' 0 4

/-- The index of the right pixel: the high nibble (R102). -/
def rightIndex (byte : Byte) : BitVec 4 := byte.extractLsb' 4 4

/-- The place in `BITMAP` of byte p of chunk c (R101). -/
def byteIndex (c p : Nat) : Nat := Config.chunkBytes * c + p

/-- The place of every byte of every chunk is inside the bitmap (R101). -/
theorem byteIndex_lt (c : Fin Config.chunks) (p : Fin Config.chunkBytes) : byteIndex c.val p.val < Config.bitmapSize := by
  have hc := c.isLt
  have hp := p.isLt
  simp only [byteIndex, Config.chunks, Config.chunkBytes, Config.bitmapSize] at *
  omega

/-- Column of the left pixel of byte p of chunk c (R103). -/
def pixelX (c p : Nat) : Nat := (c * Config.tileSide) % Config.iconSide + (p * 2) % Config.tileSide

/-- Row of both pixels of byte p of chunk c (R103). -/
def pixelY (c p : Nat) : Nat := c / Config.tilesPerRow * Config.tileSide + p / 4

/-- Draw one pixel index: nothing for index 0 (R104), else the block in the colour of its palette entry (R105). -/
def drawIndex (palette : Vector Hword 16) (scale : BitVec 8) (x y : Nat) (i : BitVec 4) (canvas : List (Nat × Color)) :
    List (Nat × Color) :=
  if i = Config.transparentIndex then canvas
  else drawBlock scale x y (decodeColor (palette[i.toNat]'(i.isLt))) canvas

/-- `unpack_byte(c, p)`: the left pixel, then the right one (R106). -/
def unpackByte (bitmap : Vector Byte 512) (palette : Vector Hword 16) (scale : BitVec 8)
    (c : Fin Config.chunks) (p : Fin Config.chunkBytes) (canvas : List (Nat × Color)) : List (Nat × Color) :=
  let byte := bitmap[byteIndex c.val p.val]'(byteIndex_lt c p)
  let x := pixelX c.val p.val
  let y := pixelY c.val p.val
  drawIndex palette scale (x + 1) y (rightIndex byte) (drawIndex palette scale x y (leftIndex byte) canvas)

/-- The scan of UNPACK: c upward, then p upward (R107, R108). -/
def unpackCanvas (bitmap : Vector Byte 512) (palette : Vector Hword 16) (scale : BitVec 8) (canvas : List (Nat × Color)) :
    List (Nat × Color) :=
  (List.finRange Config.chunks).foldl
    (fun acc c => (List.finRange Config.chunkBytes).foldl (fun acc p => unpackByte bitmap palette scale c p acc) acc)
    canvas

/-- The body of UNPACK (R107). -/
def unpackStage (s : State) : Stage := .done (s.setCanvas (unpackCanvas s.bitmap s.palette s.scale s.canvas))

/-- UNPACK (R107). -/
def execUnpack (s : State) : Host.Outcome State Fault Refusal := conclude (unpackStage s)

end Sys2Proof.Machine
end

