-- ==== Sys2Proof/Machine/Extract.lean ====
section
/-! DEFINITION. EXTRACT: the five stages in order (spec 44_extract_sequence.md R160). -/

namespace Sys2Proof.Machine

/-- The stages of EXTRACT: RESOLVE, SLICEB, SLICEP, CLEAR s, UNPACK, each without its own response and its own write of
`STATUS.ERR` (R160). -/
def extractStages (scale : BitVec 8) (s : State) : Stage :=
  ((((resolveStage s).andThen slicebStage).andThen slicepStage).andThen (clearStage scale)).andThen unpackStage

/-- EXTRACT s (R160). -/
def execExtract (scale : BitVec 8) (s : State) : Host.Outcome State Fault Refusal := conclude (extractStages scale s)

end Sys2Proof.Machine
end

