-- ==== Sys2Proof/Machine/Dispatch.lean ====
section
/-! DEFINITION. The dispatch: one arm per command (spec 30_encoding.md R62). -/

namespace Sys2Proof.Machine

def exec (i : Instr) (s : State) : Host.Outcome State Fault Refusal :=
  match i with
  | .expand w => Sys2Proof.Machine.execExpand w s
  | .unpack => Sys2Proof.Machine.execUnpack s
  | .drawpx x y => Sys2Proof.Machine.execDrawpx x y s
  | .resolve => Sys2Proof.Machine.execResolve s
  | .sliceb => Sys2Proof.Machine.execSliceb s
  | .slicep => Sys2Proof.Machine.execSlicep s
  | .clear scale => Sys2Proof.Machine.execClear scale s
  | .extract scale => Sys2Proof.Machine.execExtract scale s

end Sys2Proof.Machine
end

