-- ==== Sys2Proof/Machine/Ports.lean ====
section
/-! DEFINITION. The host's side of the block (spec 44_extract_sequence.md R165): the register read port, the canvas read port,
attaching an image, and reset. The read ports are functions of a state: they change nothing, and they are used between
commands only (70_reset_and_hazards.md R203). -/

namespace Sys2Proof.Machine

/-- `RegRead(n)`, n a 3-bit number (10_state.md R31, 44_extract_sequence.md R164). -/
def regRead (n : BitVec 3) (s : State) : Word :=
  match n.toNat with
  | 0 => statusWord s.err
  | 1 => s.tileOffset
  | 2 => s.scale.setWidth 32
  | 3 => (pack s.color).setWidth 32
  | 4 => s.rom.length
  | _ => 0#32

/-- `CanvasRead(col, row)`; none, the refusal of the port, for a cell that does not exist (20_memory.md R46, U8). -/
def canvasRead (col row : Nat) (s : State) : Option (BitVec 24) :=
  if col < canvasSide s.scale ∧ row < canvasSide s.scale then some (pack (readCell s.scale col row s.canvas)) else none

/-- The canvas as a host streams it out: rows from top to bottom, each row from left to right, the channels of a cell in the
order r, g, b (20_memory.md R47). -/
def canvasStream (s : State) : List Byte :=
  (List.range (canvasSide s.scale)).flatMap fun row =>
    (List.range (canvasSide s.scale)).flatMap fun col =>
      let color := readCell s.scale col row s.canvas
      [color.r, color.g, color.b]

/-- Attach another image. `TILE_OFFSET`, `BITMAP` and `PALETTE` are copies and stay (20_memory.md R53). -/
def attachImage (length : BitVec 32) (bytes : List Host.Cell) (s : State) : State := s.setRom (Image.ofCells length bytes)

/-- Reset (70_reset_and_hazards.md R200): every piece of the block's state takes its value after reset. The attached image is
not touched, nor are the host's own lists. -/
def applyReset (s : State) : State :=
  { State.reset with rom := s.rom, inputs := s.inputs, responses := s.responses }

/-- The host's next action, and the state in which it is no longer to come. -/
def nextInput (s : State) : Option (HostInput × State) :=
  match s.inputs with
  | [] => none
  | a :: rest => some (a, s.setInputs rest)

/-- Put a word on the command port, before everything else the host is still to do. -/
def presentCommand (cmd : Word) (s : State) : State := s.setInputs (.command cmd :: s.inputs)

end Sys2Proof.Machine
end

