-- ==== Sys2Proof/Machine/Command.lean ====
section
/-! DEFINITION. One command word: decoded and executed, or illegal (spec 00_scope.md R13, 30_encoding.md R70); and a program,
the left-to-right composition of its commands. -/

namespace Sys2Proof.Machine

/-- `exec(rom, cmd, state)` of 00_scope.md R13: decoding comes first (60_exceptions.md R186), and a word that is no command
raises `IllegalCommand` (30_encoding.md R70, 60_exceptions.md R182). -/
def runCommand (cmd : Word) (s : State) : Host.Outcome State Fault Refusal :=
  match decode cmd with
  | .ok i => exec i s
  | .error _ => .next (raise .illegalCommand s)

/-- What one action of the host does. -/
def runInput (a : HostInput) (s : State) : Host.Outcome State Fault Refusal :=
  match a with
  | .command cmd => runCommand cmd s
  | .attach length bytes => .next (attachImage length bytes s)
  | .reset => .next (applyReset s)

/-- A program: a finite sequence of command words, executed from left to right (00_scope.md R13, 70_reset_and_hazards.md
R210). -/
def runProgram (cmds : List Word) (s : State) : Host.Outcome State Fault Refusal :=
  match cmds with
  | [] => .next s
  | cmd :: rest =>
    match runCommand cmd s with
    | .next t => runProgram rest t
    | .fault f => .fault f
    | .refused r => .refused r

end Sys2Proof.Machine
end

