-- ==== Sys2Proof/Machine/Step.lean ====
section
/-! DEFINITION. The step: the host's next action, taken whole (spec 00_scope.md R7, R13); with none pending the block waits and
keeps its state (60_exceptions.md R194, 70_reset_and_hazards.md R200; notes/assumptions/6.md). -/

namespace Sys2Proof.Machine

/-- One step of the machine. -/
def step (s : State) : Host.Outcome State Fault Refusal :=
  match nextInput s with
  | none => .next s
  | some (a, t) => runInput a t

/-- `s` with the word of the opcode table's entry on the command port, so that the next step takes it
(notes/assumptions/10.md). -/
def State.withFetchWord (s : State) (nbits w : Nat) : State :=
  match tableWord nbits w with
  | some cmd => presentCommand cmd s
  | none => s

end Sys2Proof.Machine
end

