-- ==== Sys2Proof/WellFormed.lean ====
section
/-! DEFINITION. Assembler statements and which of them are well formed (spec 30_encoding.md R78 and R79): "An operand outside
its range is an assembly error, not a command". A command itself (`Instr`) is well formed by its type: its operand fields
have exactly the widths R61 gives, so every `Instr` can be encoded. -/

namespace Sys2Proof

/-- One assembler statement: a mnemonic with operands written as numbers (R78), or a pseudo-instruction (R79). -/
inductive AsmLine where
  | expand (w : Nat)
  | unpack
  | drawpx (x y : Nat)
  | resolve
  | sliceb
  | slicep
  | clear (s : Nat)
  | extract (s : Nat)
  /-- LOAD: `RESOLVE ; SLICEB ; SLICEP`. -/
  | load
  /-- RENDER s: `CLEAR s ; UNPACK`. -/
  | render (s : Nat)
  deriving DecidableEq, Repr

/-- Every operand of the statement is inside the range the table of R78 gives it. -/
def AsmLine.wellFormed : AsmLine → Bool
  | .expand w => decide (w ≤ 0xFFFF)
  | .drawpx x y => decide (x ≤ 31) && decide (y ≤ 31)
  | .clear s => decide (s ≤ 255)
  | .extract s => decide (s ≤ 255)
  | .render s => decide (s ≤ 255)
  | .unpack => true
  | .resolve => true
  | .sliceb => true
  | .slicep => true
  | .load => true

end Sys2Proof
end

