-- ==== Sys2Proof/Machine/Assembler.lean ====
section
/-! DEFINITION. The assembler of the spec: statements to commands, and the text of a line to a statement (spec
30_encoding.md R78, R79). It is no part of the block; programs are written with it (92_eei_decisions.md D22). -/

namespace Sys2Proof.Machine

/-- The commands of a well-formed statement; a pseudo-instruction is a fixed sequence (R79). -/
def expandLine : AsmLine → List Instr
  | .expand w => [.expand (BitVec.ofNat 16 w)]
  | .unpack => [.unpack]
  | .drawpx x y => [.drawpx (BitVec.ofNat 5 x) (BitVec.ofNat 5 y)]
  | .resolve => [.resolve]
  | .sliceb => [.sliceb]
  | .slicep => [.slicep]
  | .clear s => [.clear (BitVec.ofNat 8 s)]
  | .extract s => [.extract (BitVec.ofNat 8 s)]
  | .load => [.resolve, .sliceb, .slicep]
  | .render s => [.clear (BitVec.ofNat 8 s), .unpack]

/-- The command words of a statement; none is the assembly error of an operand outside its range (R78). -/
def assemble (line : AsmLine) : Option (List Word) :=
  if line.wellFormed then some ((expandLine line).map encode) else none

/-- Why a line of text is no statement. -/
inductive AsmError where
  | badNumber
  | badStatement
  | outOfRange
  deriving DecidableEq, Repr

/-- The value of a digit below `base`, 10 or 16. -/
def digitValue (base : Nat) (c : Char) : Option Nat :=
  let v :=
    if '0' ≤ c ∧ c ≤ '9' then c.toNat - '0'.toNat
    else if 'A' ≤ c ∧ c ≤ 'F' then c.toNat - 'A'.toNat + 10
    else if 'a' ≤ c ∧ c ≤ 'f' then c.toNat - 'a'.toNat + 10
    else base
  if v < base then some v else none

/-- The number written by the digits `cs` after the digits that gave `acc`. -/
def digitsValue (base acc : Nat) : List Char → Option Nat
  | [] => some acc
  | c :: cs =>
    match digitValue base c with
    | some v => digitsValue base (acc * base + v) cs
    | none => none

/-- A number: decimal, or hexadecimal with the prefix `0x` (R78). -/
def parseNumber : List Char → Option Nat
  | [] => none
  | '0' :: 'x' :: c :: cs => digitsValue 16 0 (c :: cs)
  | c :: cs => digitsValue 10 0 (c :: cs)

/-- White space inside a line: space, tab and carriage return (notes/assumptions/11.md). -/
def isBlank (c : Char) : Bool := c = ' ' || c = '\t' || c = '\r'

/-- The text without white space at its ends. -/
def trimText (cs : List Char) : List Char := ((cs.dropWhile isBlank).reverse.dropWhile isBlank).reverse

/-- The pieces of a text between the occurrences of `sep`; always at least one piece. -/
def splitText (sep : Char) : List Char → List (List Char)
  | [] => [[]]
  | c :: cs =>
    match splitText sep cs with
    | [] => [[c]]
    | p :: ps => if c = sep then [] :: p :: ps else (c :: p) :: ps

/-- The numbers of a list of texts; none where one of them is no number. -/
def parseNumbers : List (List Char) → Option (List Nat)
  | [] => some []
  | t :: ts =>
    match parseNumber (trimText t), parseNumbers ts with
    | some n, some ns => some (n :: ns)
    | _, _ => none

/-- The statement with this mnemonic and these operands (R78, R79). -/
def statementOf (mnemonic : String) (operands : List Nat) : Option AsmLine :=
  match mnemonic, operands with
  | "EXPAND", [w] => some (.expand w)
  | "UNPACK", [] => some .unpack
  | "DRAWPX", [x, y] => some (.drawpx x y)
  | "RESOLVE", [] => some .resolve
  | "SLICEB", [] => some .sliceb
  | "SLICEP", [] => some .slicep
  | "CLEAR", [s] => some (.clear s)
  | "EXTRACT", [s] => some (.extract s)
  | "LOAD", [] => some .load
  | "RENDER", [s] => some (.render s)
  | _, _ => none

/-- One line of text: its comment, from `;` to the end of the line, is dropped; then nothing, or a mnemonic in capitals
followed by operands separated by commas (R78). -/
def parseLine (text : List Char) : Except AsmError (Option AsmLine) :=
  match trimText (text.takeWhile (· != ';')) with
  | [] => .ok none
  | c :: cs =>
    let mnemonic := (c :: cs).takeWhile fun ch => !isBlank ch
    let rest := trimText ((c :: cs).dropWhile fun ch => !isBlank ch)
    match if rest = [] then some [] else parseNumbers (splitText ',' rest) with
    | none => .error .badNumber
    | some operands =>
      match statementOf (String.ofList mnemonic) operands with
      | none => .error .badStatement
      | some line => .ok (some line)

/-- The command words of the lines of a program text, the first error ending the assembly. -/
def assembleLines : List (List Char) → Except AsmError (List Word)
  | [] => .ok []
  | text :: rest =>
    match parseLine text with
    | .error e => .error e
    | .ok none => assembleLines rest
    | .ok (some line) =>
      match assemble line, assembleLines rest with
      | some words, .ok more => .ok (words ++ more)
      | none, _ => .error .outOfRange
      | _, .error e => .error e

/-- The command words of a program text, one statement a line (R78). -/
def assembleText (text : String) : Except AsmError (List Word) := assembleLines (splitText '\n' text.toList)

end Sys2Proof.Machine
end

