-- ==== Sys2Proof/Safety.lean ====
section
/-! DEFINITION. What claims are stated in terms of: the invariant of the machine, the bitmap's
nibbles by the logical pixel they govern, and a safe run. -/

namespace Sys2Proof.Machine

/-- The channel is one of the 32 values of the expansion table (spec 40_palette_expander.md R92). -/
def expandedChannel (v : Byte) : Prop := ∃ ch : BitVec 5, expand5 ch = v

/-- Every channel of the colour is one of the 32 values of the expansion table (10_state.md R25, 40_palette_expander.md
R92). -/
def expandedColor (c : Color) : Prop := expandedChannel c.r ∧ expandedChannel c.g ∧ expandedChannel c.b

/-- The invariant of the machine: it holds after reset and every step keeps it. -/
structure State.Inv (s : State) : Prop where
  /-- The attached image is written in its one canonical form. -/
  romCanonical : Memory.wf 0#8 s.rom.cells = true
  /-- No byte exists at an address at or above `ROM_LEN` (20_memory.md R40). -/
  romBounded : Memory.below s.rom.size s.rom.cells = true
  /-- The canvas is written in its one canonical form. -/
  canvasCanonical : Memory.wf Config.background s.canvas = true
  /-- The canvas has exactly W * W cells (10_state.md R30): no entry lies outside them. -/
  canvasBounded : Memory.below (canvasSide s.scale * canvasSide s.scale) s.canvas = true
  /-- `STATUS.ERR` only ever holds 0, 1 or 2 (10_state.md R27). -/
  errLegal : s.err.toNat ≤ 2
  /-- Each channel of `COLOR` is a value of the expansion table (10_state.md R25). -/
  colorExpanded : expandedColor s.color
  /-- Each channel of a canvas cell that is not background is a value of the expansion table (40_palette_expander.md R92). -/
  cellsExpanded : ∀ cell ∈ s.canvas, expandedColor cell.2

/-- The nibble of its byte that governs a logical pixel of column X: the low one for an even X, the high one for an odd X
(41_bitmap_tile_decoder.md R110, R111). -/
def governingIndex (byte : Byte) (X : Nat) : BitVec 4 :=
  if X % 2 = 0 then byte.extractLsb' 0 4 else byte.extractLsb' 4 4

/-- The place in `BITMAP` of the byte that holds the logical pixel (X, Y): byte 4 * (Y mod 8) + floor((X mod 8) / 2) of chunk
4 * floor(Y / 8) + floor(X / 8) (R110, R111). -/
def governingByte (X Y : Nat) : Nat := 32 * (4 * (Y / 8) + X / 8) + (4 * (Y % 8) + X % 8 / 2)

/-- One of the 1024 nibbles of the bitmap: its chunk, its byte in the chunk, and whether it is the high (right) one. -/
abbrev Nibble := Fin 16 × Fin 32 × Bool

/-- Draw one nibble by itself: the left pixel at (x, y) or the right one at (x + 1, y) (R104, R105, R106). -/
def drawNibble (bitmap : Vector Byte 512) (palette : Vector Hword 16) (scale : BitVec 8) (canvas : List (Nat × Color))
    (n : Nibble) : List (Nat × Color) :=
  let byte := bitmap[32 * n.1.val + n.2.1.val]'(by omega)
  if n.2.2 then drawIndex palette scale (pixelX n.1.val n.2.1.val + 1) (pixelY n.1.val n.2.1.val) (rightIndex byte) canvas
  else drawIndex palette scale (pixelX n.1.val n.2.1.val) (pixelY n.1.val n.2.1.val) (leftIndex byte) canvas

/-- A run of n steps that neither faults nor is refused. -/
def SafeRun (n : Nat) (s : State) : Prop := ∃ t : State, Sys2Proof.core.run n s = .next t

end Sys2Proof.Machine
end

