-- ==== Sys2Proof/Certificates/Slice0/Obligations.lean ====
section
/-! DEFINITION. The statements for the provers, in the order of OBLIGATIONS.json: words, colour, rasteriser, tile decoder, ROM
fetch, EXTRACT, the machine as a whole, the ports, the assembler. The rules are those of spec/. -/

open Sys2Proof Sys2Proof.Machine

/-! ## Words -/

/-- Decoding the word of a command gives the command back, with every operand at every value (30_encoding.md R60 to R67). -/
def Obligations.DecodeOfEncode : Prop := ∀ i : Instr, decode (encode i) = .ok i

/-- Each word has one meaning: a word the decoder accepts is the word of what it answers (R60, R70). -/
def Obligations.EncodeOfDecode : Prop := ∀ (cmd : Word) (i : Instr), decode cmd = .ok i → encode i = cmd

/-- A word is the command of a row exactly when `cmd & mask = match` (R62). -/
def Obligations.DecodeAcceptsExactlyTheOpcodeMap : Prop :=
  ∀ cmd : Word,
    ((∃ w, decode cmd = .ok (.expand w)) ↔ cmd &&& 0xFFFF0000#32 = 0x01000000#32) ∧
    (decode cmd = .ok .unpack ↔ cmd &&& 0xFFFFFFFF#32 = 0x02000000#32) ∧
    ((∃ x y, decode cmd = .ok (.drawpx x y)) ↔ cmd &&& 0xFFFFFC00#32 = 0x03000000#32) ∧
    (decode cmd = .ok .resolve ↔ cmd &&& 0xFFFFFFFF#32 = 0x04000000#32) ∧
    (decode cmd = .ok .sliceb ↔ cmd &&& 0xFFFFFFFF#32 = 0x05000000#32) ∧
    (decode cmd = .ok .slicep ↔ cmd &&& 0xFFFFFFFF#32 = 0x06000000#32) ∧
    ((∃ s, decode cmd = .ok (.clear s)) ↔ cmd &&& 0xFFFFFF00#32 = 0x07000000#32) ∧
    ((∃ s, decode cmd = .ok (.extract s)) ↔ cmd &&& 0xFFFFFF00#32 = 0x08000000#32)

/-- The word of every command, from its opcode and operands (R63 to R66, R78). -/
def Obligations.CommandWordsOfOperands : Prop :=
  ∀ (w : BitVec 16) (x y : BitVec 5) (s : BitVec 8),
    encode (.expand w) = 0x01000000#32 ||| w.setWidth 32 ∧
    encode .unpack = 0x02000000#32 ∧
    encode (.drawpx x y) = 0x03000000#32 ||| (y.setWidth 32 <<< 5) ||| x.setWidth 32 ∧
    encode .resolve = 0x04000000#32 ∧
    encode .sliceb = 0x05000000#32 ∧
    encode .slicep = 0x06000000#32 ∧
    encode (.clear s) = 0x07000000#32 ||| s.setWidth 32 ∧
    encode (.extract s) = 0x08000000#32 ||| s.setWidth 32

/-- Words written out from the encodings of R62 decode to the commands they stand for, one of each format and more; the
all-zero and the all-ones word decode to none (R70). -/
def Obligations.SampleWordsDecode : Prop :=
  decode 0x01007FFF#32 = .ok (.expand 0x7FFF#16) ∧ decode 0x02000000#32 = .ok .unpack ∧
  decode 0x03000043#32 = .ok (.drawpx 3#5 2#5) ∧ decode 0x030003FF#32 = .ok (.drawpx 31#5 31#5) ∧
  decode 0x04000000#32 = .ok .resolve ∧ decode 0x05000000#32 = .ok .sliceb ∧ decode 0x06000000#32 = .ok .slicep ∧
  decode 0x07000002#32 = .ok (.clear 2#8) ∧ decode 0x08000020#32 = .ok (.extract 32#8) ∧
  decode 0x00000000#32 = .error (.unassignedOpcode 0x00#8) ∧ decode 0xFFFFFFFF#32 = .error (.unassignedOpcode 0xFF#8) ∧
  decode 0x02000001#32 = .error (.reservedBitSet 0x02#8) ∧ decode 0x03000400#32 = .error (.reservedBitSet 0x03#8)

/-- A word with an unassigned opcode, or with an assigned opcode and a 1 in a reserved bit of its format, raises
`IllegalCommand`: `STATUS.ERR` becomes 2, the response is 0x02000000, and nothing else of the block changes (R70,
60_exceptions.md R182, R184). -/
def Obligations.IllegalWordRaisesIllegalCommand : Prop :=
  ∀ (s : State) (cmd : Word) (rest : List HostInput), s.inputs = .command cmd :: rest →
    (let op := cmd.extractLsb' 24 8
     op = 0x00#8 ∨ 0x09#8 ≤ op ∨
       (op = 0x01#8 ∧ cmd.extractLsb' 16 8 ≠ 0#8) ∨
       ((op = 0x02#8 ∨ op = 0x04#8 ∨ op = 0x05#8 ∨ op = 0x06#8) ∧ cmd.extractLsb' 0 24 ≠ 0#24) ∨
       (op = 0x03#8 ∧ cmd.extractLsb' 10 14 ≠ 0#14) ∨
       ((op = 0x07#8 ∨ op = 0x08#8) ∧ cmd.extractLsb' 8 16 ≠ 0#16)) →
    step s = .next { s with inputs := rest, err := 2#3, responses := s.responses ++ [0x02000000#32] }

/-! ## The colour expander -/

/-- `expand5(ch) = (ch << 3) + (ch >> 2)`, the sum exact, so that it never needs a ninth bit (40_palette_expander.md R90). -/
def Obligations.Expand5Formula : Prop :=
  ∀ ch : BitVec 5, (expand5 ch).toNat = ch.toNat <<< 3 + ch.toNat >>> 2

/-- The complete table of `expand5`, and the properties that follow from it (R92): strictly increasing, consecutive values 8
or 9 apart, the channel recovered from the result; and the bits of the result, those of `ch` followed by its top 3 (R90). -/
def Obligations.Expand5Table : Prop :=
  (List.range 32).map (fun n => (expand5 (BitVec.ofNat 5 n)).toNat) =
      [0, 8, 16, 24, 33, 41, 49, 57, 66, 74, 82, 90, 99, 107, 115, 123,
        132, 140, 148, 156, 165, 173, 181, 189, 198, 206, 214, 222, 231, 239, 247, 255] ∧
  (∀ a b : BitVec 5, a < b → expand5 a < expand5 b) ∧
  (∀ n, n < 31 → (expand5 (BitVec.ofNat 5 (n + 1))).toNat =
    (expand5 (BitVec.ofNat 5 n)).toNat + if (n + 1) % 4 = 0 then 9 else 8) ∧
  (∀ ch : BitVec 5, (expand5 ch).toNat >>> 3 = ch.toNat) ∧
  (∀ ch : BitVec 5, expand5 ch = ch ++ ch.extractLsb' 2 3)

/-- `decodeColor(w)`: red from bits 4 to 0, green from bits 9 to 5, blue from bits 14 to 10; bit 15 does not enter (R91). -/
def Obligations.DecodeColorChannels : Prop :=
  ∀ w : Hword,
    decodeColor w =
        { r := expand5 (BitVec.ofNat 5 (w.toNat &&& 0x1F))
          g := expand5 (BitVec.ofNat 5 ((w.toNat >>> 5) &&& 0x1F))
          b := expand5 (BitVec.ofNat 5 ((w.toNat >>> 10) &&& 0x1F)) } ∧
    decodeColor w = decodeColor (w &&& 0x7FFF#16)

/-- `pack(Color(r, g, b)) = (r << 16) | (g << 8) | b` (10_state.md R26). -/
def Obligations.PackLayout : Prop :=
  ∀ c : Color, (pack c).toNat = (c.r.toNat <<< 16) ||| (c.g.toNat <<< 8) ||| c.b.toNat

/-- EXPAND w, whole: its word, `COLOR <- decodeColor(w)`, `STATUS.ERR <- 0`, the packed colour as the payload of the response,
and nothing else changed; no fault (R93). -/
def Obligations.ExpandSetsColor : Prop :=
  ∀ (w : BitVec 16) (s : State),
    encode (.expand w) = 0x01000000#32 ||| w.setWidth 32 ∧
    exec (.expand w) s =
      .next { s with
        color := decodeColor w
        err := 0#3
        responses := s.responses ++ [0x00#8 ++ pack (decodeColor w)] }

/-! ## The rasteriser -/

/-- DRAWPX x, y, whole: its word; columns `x * S` to `x * S + S - 1` of rows `y * S` to `y * S + S - 1` are painted in `COLOR`
and every other cell is as before, for every scale; every address of the canvas memory that is no cell of the block reads as
before; `STATUS.ERR <- 0`, response 0, and nothing else changes; no fault (42_pixel_rasterizer.md R120, R122). -/
def Obligations.DrawpxPaintsBlock : Prop :=
  ∀ (x y : BitVec 5) (s : State),
    encode (.drawpx x y) = 0x03000000#32 ||| (y.setWidth 32 <<< 5) ||| x.setWidth 32 ∧
    ∃ t : State, exec (.drawpx x y) s = .next t ∧
    t = { s with canvas := t.canvas, err := 0#3, responses := s.responses ++ [0x00000000#32] } ∧
    (∀ col row, col < 32 * s.scale.toNat → row < 32 * s.scale.toNat →
      canvasRead col row t =
        if (x.toNat * s.scale.toNat ≤ col ∧ col < x.toNat * s.scale.toNat + s.scale.toNat) ∧
            (y.toNat * s.scale.toNat ≤ row ∧ row < y.toNat * s.scale.toNat + s.scale.toNat) then some (pack s.color)
        else canvasRead col row s) ∧
    (∀ a, (∀ dx dy, dx < s.scale.toNat → dy < s.scale.toNat →
        a ≠ (y.toNat * s.scale.toNat + dy) * (32 * s.scale.toNat) + (x.toNat * s.scale.toNat + dx)) →
      Memory.read Config.background t.canvas a = Memory.read Config.background s.canvas a)

/-- CLEAR s, whole: its word; `SCALE <- s`, and the canvas has exactly (32 * s) by (32 * s) cells, every one white, none of
the old canvas surviving; `STATUS.ERR <- 0`, response 0, and nothing else changes (R123). -/
def Obligations.ClearMakesWhiteCanvas : Prop :=
  ∀ (n : BitVec 8) (s : State), encode (.clear n) = 0x07000000#32 ||| n.setWidth 32 ∧
    ∃ t : State, exec (.clear n) s = .next t ∧
    t = { s with scale := n, canvas := t.canvas, err := 0#3, responses := s.responses ++ [0x00000000#32] } ∧
    (∀ col row, canvasRead col row t =
      if col < 32 * n.toNat ∧ row < 32 * n.toNat then some 0xFFFFFF#24 else none) ∧
    (∀ a, Memory.read Config.background t.canvas a = Config.background)

/-! ## The tile decoder -/

/-- The coordinate mapping and its reading as a tile grid: the left pixel's column is even and at most 30, the row at most 31
(41_bitmap_tile_decoder.md R103, R110). -/
def Obligations.CoordinateMapping : Prop :=
  ∀ c p, c < 16 → p < 32 →
    pixelX c p = 8 * (c % 4) + 2 * (p % 4) ∧ pixelY c p = 8 * (c / 4) + p / 4 ∧
    pixelX c p % 2 = 0 ∧ pixelX c p ≤ 30 ∧ pixelY c p ≤ 31 ∧
    governingByte (pixelX c p) (pixelY c p) = 32 * c + p ∧ governingByte (pixelX c p + 1) (pixelY c p) = 32 * c + p

/-- The 1024 nibbles of the bitmap map one-to-one onto the 1024 logical pixels (R109). -/
def Obligations.NibblesMapOneToOne : Prop :=
  ∀ X Y, X < 32 → Y < 32 →
    ∃! n : Nibble, pixelX n.1.val n.2.1.val + n.2.2.toNat = X ∧ pixelY n.1.val n.2.1.val = Y

/-- The canvas after UNPACK in closed form: a cell whose governing index is 0 is as before, any other is the colour of its
palette entry; every address of the canvas memory outside the W * W cells reads as before; `STATUS.ERR <- 0`, response 0, and
nothing else changes (R107, R111). -/
def Obligations.UnpackClosedForm : Prop :=
  ∀ s : State, ∃ t : State, exec .unpack s = .next t ∧
    t = { s with canvas := t.canvas, err := 0#3, responses := s.responses ++ [0x00000000#32] } ∧
    (∀ col row, col < 32 * s.scale.toNat → row < 32 * s.scale.toNat →
      ∃ byte, s.bitmap[governingByte (col / s.scale.toNat) (row / s.scale.toNat)]? = some byte ∧
        (let i := governingIndex byte (col / s.scale.toNat)
         (i = 0#4 → canvasRead col row t = canvasRead col row s) ∧
         (i ≠ 0#4 → canvasRead col row t = some (pack (decodeColor (s.palette[i.toNat]'(i.isLt))))))) ∧
    (∀ a, 32 * s.scale.toNat * (32 * s.scale.toNat) ≤ a →
      Memory.read Config.background t.canvas a = Memory.read Config.background s.canvas a)

/-- An all-transparent bitmap draws nothing, whatever the canvas holds and whatever the palette (R104, the document's test). -/
def Obligations.UnpackAllTransparentDrawsNothing : Prop :=
  ∀ s : State, (∀ i (h : i < 512), s.bitmap[i] = 0x00#8) →
    exec .unpack s = .next { s with err := 0#3, responses := s.responses ++ [0x00000000#32] }

/-- UNPACK twice in a row leaves the same canvas as once: the same cells written the same way (R107 corner case d). The premise
is a part of the machine's invariant. -/
def Obligations.UnpackTwiceIsOnce : Prop :=
  ∀ s t : State, Memory.wf Config.background s.canvas = true → exec .unpack s = .next t →
    exec .unpack t = .next { t with responses := t.responses ++ [0x00000000#32] }

/-- The order of the scan is not observable: drawing the 1024 nibbles one by one in any order whatever (each of them at least
once) gives the canvas of UNPACK (R108). The premise on the canvas is a part of the machine's invariant. -/
def Obligations.UnpackOrderUnobservable : Prop :=
  ∀ (bitmap : Vector Byte 512) (palette : Vector Hword 16) (scale : BitVec 8) (canvas : List (Nat × Color))
    (order : List Nibble),
    Memory.wf Config.background canvas = true → (∀ n : Nibble, n ∈ order) →
    order.foldl (drawNibble bitmap palette scale) canvas = unpackCanvas bitmap palette scale canvas

/-- Bit 15 of the palette words and the whole of entry 0 have no effect on UNPACK (R107 corner case e, 30_encoding.md R77). -/
def Obligations.UnusedPaletteBitsHaveNoEffect : Prop :=
  ∀ (s : State) (palette : Vector Hword 16),
    (∀ i (h : i < 16), 1 ≤ i → palette[i] &&& 0x7FFF#16 = s.palette[i] &&& 0x7FFF#16) →
    ∃ t : State, exec .unpack s = .next t ∧
      exec .unpack { s with palette := palette } = .next { t with palette := palette }

/-! ## The ROM fetch front end -/

/-- RESOLVE, whole: its word; with `ROM_LEN` >= 0x6C the four bytes at 0x68, little-endian, become `TILE_OFFSET`; with less it
raises `OutOfBounds` and `TILE_OFFSET` keeps its value; nothing else changes (43_rom_fetch.md R141). -/
def Obligations.ResolveTakesPointer : Prop :=
  ∀ s : State, encode .resolve = 0x04000000#32 ∧
    (0x6C ≤ s.rom.size → ∃ b0 b1 b2 b3 : Byte,
      s.rom.byte? 0x68 = some b0 ∧ s.rom.byte? 0x69 = some b1 ∧ s.rom.byte? 0x6A = some b2 ∧ s.rom.byte? 0x6B = some b3 ∧
      exec .resolve s =
        .next { s with
          tileOffset := b3 ++ b2 ++ b1 ++ b0
          err := 0#3
          responses := s.responses ++ [0x00000000#32] }) ∧
    (s.rom.size < 0x6C →
      exec .resolve s = .next { s with err := 1#3, responses := s.responses ++ [0x01000000#32] })

/-- SLICEB, whole: its word; with `ROM_LEN` >= `TILE_OFFSET` + 0x220 the 512 bytes at `TILE_OFFSET` + 0x20 become `BITMAP`;
with less it raises `OutOfBounds` and `BITMAP` keeps all of its bytes; nothing else changes (R142). -/
def Obligations.SlicebCopiesBitmap : Prop :=
  ∀ s : State, encode .sliceb = 0x05000000#32 ∧
    (s.tileOffset.toNat + 0x220 ≤ s.rom.size → ∃ bitmap : Vector Byte 512,
      (∀ i (h : i < 512), s.rom.byte? (s.tileOffset.toNat + 0x20 + i) = some bitmap[i]) ∧
      exec .sliceb s =
        .next { s with bitmap := bitmap, err := 0#3, responses := s.responses ++ [0x00000000#32] }) ∧
    (s.rom.size < s.tileOffset.toNat + 0x220 →
      exec .sliceb s = .next { s with err := 1#3, responses := s.responses ++ [0x01000000#32] })

/-- SLICEP, whole: its word; with `ROM_LEN` >= `TILE_OFFSET` + 0x240 the 16 little-endian words at `TILE_OFFSET` + 0x220, all
16 bits of each, become `PALETTE`; with less it raises `OutOfBounds` and `PALETTE` keeps all of its words; nothing else
changes (R143). -/
def Obligations.SlicepCopiesPalette : Prop :=
  ∀ s : State, encode .slicep = 0x06000000#32 ∧
    (s.tileOffset.toNat + 0x240 ≤ s.rom.size → ∃ palette : Vector Hword 16,
      (∀ i (h : i < 16), ∃ b0 b1 : Byte,
        s.rom.byte? (s.tileOffset.toNat + 0x220 + 2 * i) = some b0 ∧
        s.rom.byte? (s.tileOffset.toNat + 0x220 + 2 * i + 1) = some b1 ∧ palette[i] = b1 ++ b0) ∧
      exec .slicep s =
        .next { s with palette := palette, err := 0#3, responses := s.responses ++ [0x00000000#32] }) ∧
    (s.rom.size < s.tileOffset.toNat + 0x240 →
      exec .slicep s = .next { s with err := 1#3, responses := s.responses ++ [0x01000000#32] })

/-- The offset sums never wrap: whatever image is attached, a `TILE_OFFSET` above 2^32 - 0x221 fails SLICEB and one above
2^32 - 0x241 fails SLICEP (20_memory.md R49). -/
def Obligations.SlicesNeverWrap : Prop :=
  ∀ s : State,
    (2 ^ 32 - 0x221 < s.tileOffset.toNat →
      exec .sliceb s = .next { s with err := 1#3, responses := s.responses ++ [0x01000000#32] }) ∧
    (2 ^ 32 - 0x241 < s.tileOffset.toNat →
      exec .slicep s = .next { s with err := 1#3, responses := s.responses ++ [0x01000000#32] })

/-! ## EXTRACT -/

/-- A successful EXTRACT s, whole: with T the pointer at 0x68 and `ROM_LEN` >= T + 0x240, `TILE_OFFSET`, `BITMAP`, `PALETTE`
and `SCALE` are the image's and the operand's, the canvas is the closed form over white and holds nothing else, `STATUS.ERR <-
0`, response 0, and `COLOR`, the image and the host's actions are as before (44_extract_sequence.md R160, R162). -/
def Obligations.ExtractClosedForm : Prop :=
  ∀ (n : BitVec 8) (s : State) (b0 b1 b2 b3 : Byte),
    s.rom.byte? 0x68 = some b0 → s.rom.byte? 0x69 = some b1 → s.rom.byte? 0x6A = some b2 → s.rom.byte? 0x6B = some b3 →
    (b3 ++ b2 ++ b1 ++ b0 : BitVec 32).toNat + 0x240 ≤ s.rom.size →
    let T := (b3 ++ b2 ++ b1 ++ b0 : BitVec 32).toNat
    ∃ t : State, exec (.extract n) s = .next t ∧
      t = { s with
        tileOffset := b3 ++ b2 ++ b1 ++ b0
        bitmap := t.bitmap
        palette := t.palette
        scale := n
        canvas := t.canvas
        err := 0#3
        responses := s.responses ++ [0x00000000#32] } ∧
      (∀ i (h : i < 512), s.rom.byte? (T + 0x20 + i) = some t.bitmap[i]) ∧
      (∀ i (h : i < 16), ∃ w0 w1 : Byte,
        s.rom.byte? (T + 0x220 + 2 * i) = some w0 ∧ s.rom.byte? (T + 0x220 + 2 * i + 1) = some w1 ∧
        t.palette[i] = w1 ++ w0) ∧
      (∀ col row, col < 32 * n.toNat → row < 32 * n.toNat →
        ∃ byte, s.rom.byte? (T + 0x20 + governingByte (col / n.toNat) (row / n.toNat)) = some byte ∧
          (let i := governingIndex byte (col / n.toNat)
           (i = 0#4 → canvasRead col row t = some 0xFFFFFF#24) ∧
           (i ≠ 0#4 → ∃ w0 w1 : Byte,
             s.rom.byte? (T + 0x220 + 2 * i.toNat) = some w0 ∧ s.rom.byte? (T + 0x220 + 2 * i.toNat + 1) = some w1 ∧
             canvasRead col row t = some (pack (decodeColor (w1 ++ w0)))))) ∧
      (∀ a, 32 * n.toNat * (32 * n.toNat) ≤ a → Memory.read Config.background t.canvas a = Config.background)

/-- A failing EXTRACT keeps the writes of the stages before the failing one and nothing of the others: `SCALE` and the canvas
are never touched (R160's table, 60_exceptions.md R184). -/
def Obligations.ExtractFailureKeepsCompletedStages : Prop :=
  ∀ (n : BitVec 8) (s : State),
    (s.rom.size < 0x6C →
      exec (.extract n) s = .next { s with err := 1#3, responses := s.responses ++ [0x01000000#32] }) ∧
    (∀ b0 b1 b2 b3 : Byte,
      s.rom.byte? 0x68 = some b0 → s.rom.byte? 0x69 = some b1 → s.rom.byte? 0x6A = some b2 → s.rom.byte? 0x6B = some b3 →
      let T : BitVec 32 := b3 ++ b2 ++ b1 ++ b0
      (s.rom.size < T.toNat + 0x220 →
        exec (.extract n) s =
          .next { s with tileOffset := T, err := 1#3, responses := s.responses ++ [0x01000000#32] }) ∧
      (T.toNat + 0x220 ≤ s.rom.size → s.rom.size < T.toNat + 0x240 → ∃ bitmap : Vector Byte 512,
        (∀ i (h : i < 512), s.rom.byte? (T.toNat + 0x20 + i) = some bitmap[i]) ∧
        exec (.extract n) s =
          .next { s with
            tileOffset := T
            bitmap := bitmap
            err := 1#3
            responses := s.responses ++ [0x01000000#32] }))

/-- A successful EXTRACT is a function of the attached image and s alone: from any two states with the same image, if one EXTRACT
succeeds so does the other, and they leave the same `TILE_OFFSET`, `BITMAP`, `PALETTE`, `SCALE` and canvas, each leaving its own
`COLOR` alone (R161). -/
def Obligations.ExtractDependsOnImageAndScaleOnly : Prop :=
  ∀ (n : BitVec 8) (s s' t : State), s'.rom = s.rom → exec (.extract n) s = .next t → t.err = 0#3 →
    exec (.extract n) s' =
      .next { t with color := s'.color, inputs := s'.inputs, responses := s'.responses ++ [0x00000000#32] }

/-- EXTRACT twice on the same image with the same scale leaves what once leaves (R161, the document's idempotence). -/
def Obligations.ExtractTwiceIsOnce : Prop :=
  ∀ (n : BitVec 8) (s t : State), exec (.extract n) s = .next t → t.err = 0#3 →
    exec (.extract n) t = .next { t with responses := t.responses ++ [0x00000000#32] }

/-- `LOAD` followed by `RENDER s`, run as the words the assembler emits, leaves the same `TILE_OFFSET`, `BITMAP`, `PALETTE`,
`SCALE` and canvas as `EXTRACT s`, from every state in which no command of them fails (30_encoding.md R79). -/
def Obligations.LoadRenderEqualsExtract : Prop :=
  ∀ (n : BitVec 8) (s : State) (pointer : Nat), s.rom.memRead 0x68 4 = some pointer → pointer + 0x240 ≤ s.rom.size →
    ∃ (load render : List Word) (t u : State),
      assemble .load = some load ∧ assemble (.render n.toNat) = some render ∧
      runProgram (load ++ render) s = .next t ∧ exec (.extract n) s = .next u ∧
      t.tileOffset = u.tileOffset ∧ t.bitmap = u.bitmap ∧ t.palette = u.palette ∧ t.scale = u.scale ∧
      t.canvas = u.canvas ∧ t.color = u.color ∧ t.err = 0#3 ∧ u.err = 0#3

/-- The bytes of the image that EXTRACT does not read have no effect on it: two images of one length that agree on the pointer
and on the 0x220 bytes of the bitmap and palette regions are indistinguishable to it, whether it succeeds or not
(20_memory.md R48, 93_implementation_defined.md U17). -/
def Obligations.UnreadRomBytesHaveNoEffect : Prop :=
  ∀ (n : BitVec 8) (s : State) (rom : Image), rom.length = s.rom.length →
    (∀ a, 0x68 ≤ a → a < 0x6C → rom.byte? a = s.rom.byte? a) →
    (∀ T a, s.rom.memRead 0x68 4 = some T → T + 0x20 ≤ a → a < T + 0x240 → rom.byte? a = s.rom.byte? a) →
    ∃ t : State, exec (.extract n) s = .next t ∧ exec (.extract n) { s with rom := rom } = .next { t with rom := rom }

/-! ## The machine as a whole -/

/-- A step runs the decoded command: when the host's next action is a word that decodes to `i`, the step is `exec i` at the
state in which that action is no longer to come (00_scope.md R13). -/
def Obligations.StepRunsDecodedCommand : Prop :=
  ∀ (s : State) (cmd : Word) (rest : List HostInput) (i : Instr),
    s.inputs = .command cmd :: rest → decode cmd = .ok i → step s = exec i { s with inputs := rest }

/-- With nothing asked of it the block waits, and all of its state is kept (60_exceptions.md R194). -/
def Obligations.StepWaitsWithNoInput : Prop := ∀ s : State, s.inputs = [] → step s = .next s

/-- Reset from any state: every piece of the block's state takes its reset value, the canvas has no cells, and the attached
image is not touched (70_reset_and_hazards.md R200, 10_state.md R33). -/
def Obligations.StepAppliesReset : Prop :=
  ∀ (s : State) (rest : List HostInput), s.inputs = .reset :: rest → ∃ t : State, step s = .next t ∧
    t.tileOffset = 0x00000000#32 ∧ t.scale = 0#8 ∧ t.color = { r := 0#8, g := 0#8, b := 0#8 } ∧ t.err = 0#3 ∧
    (∀ i (h : i < 512), t.bitmap[i] = 0x00#8) ∧ (∀ i (h : i < 16), t.palette[i] = 0x0000#16) ∧
    (∀ col row, canvasRead col row t = none) ∧ t.canvas = [] ∧
    t.rom = s.rom ∧ t.inputs = rest ∧ t.responses = s.responses

/-- Attaching an image changes the image and nothing else: `TILE_OFFSET`, `BITMAP`, `PALETTE` and the canvas stay
(20_memory.md R53). That of the bytes given for one address the last counts, and that a byte not given is 0x00, is the model's
way to write an image down (notes/assumptions/2.md and 8.md). -/
def Obligations.StepAttachesImage : Prop :=
  ∀ (s : State) (length : BitVec 32) (bytes : List Host.Cell) (rest : List HostInput),
    s.inputs = .attach length bytes :: rest → ∃ t : State, step s = .next t ∧
      t = { s with rom := t.rom, inputs := rest } ∧ t.rom.length = length ∧
      ∀ a, t.rom.byte? a = if a < length.toNat then some ((bytes.reverse.lookup a).getD 0x00#8) else none

/-- The value of every piece of state after reset (10_state.md R33). That no image is attached then is the model's choice
(notes/assumptions/5.md). -/
def Obligations.ResetStateValues : Prop :=
  State.reset.tileOffset = 0x00000000#32 ∧ State.reset.scale = 0#8 ∧
  State.reset.color = { r := 0#8, g := 0#8, b := 0#8 } ∧ State.reset.err = 0#3 ∧
  (∀ i (h : i < 512), State.reset.bitmap[i] = 0x00#8) ∧ (∀ i (h : i < 16), State.reset.palette[i] = 0x0000#16) ∧
  (∀ col row, canvasRead col row State.reset = none) ∧ State.reset.rom.size = 0

/-- No run from any state ever stops: no command hangs (44_extract_sequence.md R163,
60_exceptions.md R180). That this also says that no byte at or above `ROM_LEN` is read (20_memory.md R40, R49) rests on the
model's choice to make such a read the fault `romByteAbsent` (notes/assumptions/9.md). -/
def Obligations.EveryRunIsSafe : Prop := ∀ (n : Nat) (s : State), SafeRun n s

/-- Every command word ends in exactly one of three outcomes and returns exactly one response word: the code in bits 31:24 and
in `STATUS.ERR`; the payload is `pack(COLOR)` after an EXPAND and 0 in every other case; code 2 exactly for a word that is no
command; EXPAND, UNPACK, DRAWPX and CLEAR always end `OK` (30_encoding.md R68, R69, 60_exceptions.md R180). -/
def Obligations.EveryCommandResponds : Prop :=
  ∀ (cmd : Word) (s : State), ∃ (t : State) (code : Nat) (payload : BitVec 24),
    runCommand cmd s = .next t ∧ code ≤ 2 ∧ t.err = BitVec.ofNat 3 code ∧
    t.responses = s.responses ++ [BitVec.ofNat 8 code ++ payload] ∧
    ((∃ w, decode cmd = .ok (.expand w)) → payload = pack t.color) ∧
    ((∀ w, decode cmd ≠ .ok (.expand w)) → payload = 0#24) ∧
    (code = 2 ↔ ∀ i, decode cmd ≠ .ok i) ∧
    (∀ i, decode cmd = .ok i → code ≠ 0 → i = .resolve ∨ i = .sliceb ∨ i = .slicep ∨ ∃ n, i = .extract n)

/-- No command reads `STATUS.ERR`: a command after a failed one runs exactly as after a successful one (10_state.md R36,
60_exceptions.md R187). -/
def Obligations.NoCommandReadsErr : Prop :=
  ∀ (cmd : Word) (s : State) (e : BitVec 3), runCommand cmd { s with err := e } = runCommand cmd s

/-- Who writes what: each register, buffer and the canvas is changed by the commands R20 names for it and by no other, and no
command changes the image or the host's actions (10_state.md R20, 20_memory.md R41). -/
def Obligations.OnlyNamedCommandsWrite : Prop :=
  ∀ (i : Instr) (s t : State), exec i s = .next t →
    (t.tileOffset ≠ s.tileOffset → i = .resolve ∨ ∃ n, i = .extract n) ∧
    (t.scale ≠ s.scale → (∃ n, i = .clear n) ∨ ∃ n, i = .extract n) ∧
    (t.color ≠ s.color → ∃ w, i = .expand w) ∧
    (t.bitmap ≠ s.bitmap → i = .sliceb ∨ ∃ n, i = .extract n) ∧
    (t.palette ≠ s.palette → i = .slicep ∨ ∃ n, i = .extract n) ∧
    (t.canvas ≠ s.canvas → (∃ n, i = .clear n) ∨ (∃ x y, i = .drawpx x y) ∨ i = .unpack ∨ ∃ n, i = .extract n) ∧
    t.rom = s.rom ∧ t.inputs = s.inputs

/-- Every step keeps the invariant of the machine (Safety.lean): memories in canonical form and inside their space, a legal
`STATUS.ERR`, and only colours the expander makes (10_state.md R25, R27, R30, 40_palette_expander.md R92). -/
def Obligations.StepKeepsInvariant : Prop := ∀ s t : State, s.Inv → step s = .next t → t.Inv

/-- The invariant holds after reset. -/
def Obligations.ResetMeetsInvariant : Prop := State.reset.Inv

/-- A program is the left-to-right composition of its commands: as many steps as it has words, with the words on the command
port, do what `runProgram` does (00_scope.md R13, 70_reset_and_hazards.md R210). -/
def Obligations.QueuedCommandsRunAsProgram : Prop :=
  ∀ (cmds : List Word) (s : State),
    Sys2Proof.core.run cmds.length { s with inputs := cmds.map .command ++ s.inputs } = runProgram cmds s

/-! ## The ports -/

/-- The register read port, number by number (10_state.md R31, 44_extract_sequence.md R164). -/
def Obligations.RegReadPortTable : Prop :=
  ∀ s : State,
    (regRead 0#3 s).toNat = s.err.toNat ∧ regRead 1#3 s = s.tileOffset ∧ (regRead 2#3 s).toNat = s.scale.toNat ∧
    (regRead 3#3 s).toNat = (pack s.color).toNat ∧ regRead 4#3 s = s.rom.length ∧
    regRead 5#3 s = 0#32 ∧ regRead 6#3 s = 0#32 ∧ regRead 7#3 s = 0#32

/-- The canvas read port returns the packed colour of a cell that exists, element row * W + col of the canvas memory, and
refuses every other read (20_memory.md R46, R47). -/
def Obligations.CanvasReadPort : Prop :=
  ∀ (s : State) (col row : Nat),
    (col < 32 * s.scale.toNat ∧ row < 32 * s.scale.toNat →
      canvasRead col row s =
        some (pack (Memory.read Config.background s.canvas (row * (32 * s.scale.toNat) + col)))) ∧
    (¬ (col < 32 * s.scale.toNat ∧ row < 32 * s.scale.toNat) → canvasRead col row s = none)

/-- The canvas as a sequence: W * W cells, rows from top to bottom, each row from left to right, and within a cell the
channels in the order r, g, b (20_memory.md R47). -/
def Obligations.CanvasStreamIsRowMajor : Prop :=
  ∀ s : State,
    (canvasStream s).length = 3 * (32 * s.scale.toNat * (32 * s.scale.toNat)) ∧
    ∀ col row, col < 32 * s.scale.toNat → row < 32 * s.scale.toNat → ∃ r g b : Byte,
      canvasRead col row s = some (r ++ g ++ b) ∧
      (canvasStream s)[3 * (row * (32 * s.scale.toNat) + col)]? = some r ∧
      (canvasStream s)[3 * (row * (32 * s.scale.toNat) + col) + 1]? = some g ∧
      (canvasStream s)[3 * (row * (32 * s.scale.toNat) + col) + 2]? = some b

/-! ## The assembler -/

/-- An operand inside its range gives the word of R78's table; an operand outside it is an assembly error; the
pseudo-instructions are the sequences of R79. -/
def Obligations.AssemblerTable : Prop :=
  (∀ w, assemble (.expand w) = if w ≤ 0xFFFF then some [0x01000000#32 ||| BitVec.ofNat 32 w] else none) ∧
  assemble .unpack = some [0x02000000#32] ∧
  (∀ x y, assemble (.drawpx x y) =
    if x ≤ 31 ∧ y ≤ 31 then some [0x03000000#32 ||| (BitVec.ofNat 32 y <<< 5) ||| BitVec.ofNat 32 x] else none) ∧
  assemble .resolve = some [0x04000000#32] ∧ assemble .sliceb = some [0x05000000#32] ∧
  assemble .slicep = some [0x06000000#32] ∧
  (∀ s, assemble (.clear s) = if s ≤ 255 then some [0x07000000#32 ||| BitVec.ofNat 32 s] else none) ∧
  (∀ s, assemble (.extract s) = if s ≤ 255 then some [0x08000000#32 ||| BitVec.ofNat 32 s] else none) ∧
  assemble .load = some [0x04000000#32, 0x05000000#32, 0x06000000#32] ∧
  (∀ s, assemble (.render s) = if s ≤ 255 then some [0x07000000#32 ||| BitVec.ofNat 32 s, 0x02000000#32] else none)
end

