-- ==== Sys2Proof/Laws/Memory.lean ====
section
/-! SUPPORT. The laws of sparse memories: read after write, the canonical form, and that memories in canonical form which read
alike are equal. -/

namespace Sys2Proof.Machine

section
variable {α : Type} (dflt : α)

@[simp] theorem Memory.read_nil (a : Nat) : Memory.read dflt [] a = dflt := rfl

theorem Memory.read_cons (b : Nat) (v : α) (rest : List (Nat × α)) (a : Nat) :
    Memory.read dflt ((b, v) :: rest) a = if b = a then v else Memory.read dflt rest a := rfl

/-- An erased address reads as unlisted. -/
theorem Memory.read_erase_same (m : List (Nat × α)) (a : Nat) : Memory.read dflt (Memory.erase m a) a = dflt := by
  induction m with
  | nil => rfl
  | cons cell rest ih =>
    obtain ⟨b, v⟩ := cell
    by_cases h : b = a
    · simpa [Memory.erase, h] using ih
    · simpa [Memory.erase, h, Memory.read_cons] using ih

/-- Erasing an address changes no other. -/
theorem Memory.read_erase_other (m : List (Nat × α)) {a b : Nat} (h : b ≠ a) :
    Memory.read dflt (Memory.erase m a) b = Memory.read dflt m b := by
  induction m with
  | nil => rfl
  | cons cell rest ih =>
    obtain ⟨k, v⟩ := cell
    by_cases hk : k = a
    · have hkb : k ≠ b := fun e => h (e.symm.trans hk)
      simpa [Memory.erase, hk, Memory.read_cons, hkb, hk ▸ hkb] using ih
    · by_cases hkb : k = b
      · simp [Memory.erase, Memory.read_cons, hkb, h]
      · simpa [Memory.erase, hk, Memory.read_cons, hkb] using ih

/-- Inserting at an address that is not listed changes what it reads as and nothing else. -/
theorem Memory.read_insert (m : List (Nat × α)) (a : Nat) (v : α) (b : Nat) (h : ∀ cell ∈ m, cell.1 ≠ a) :
    Memory.read dflt (Memory.insert m a v) b = if a = b then v else Memory.read dflt m b := by
  induction m with
  | nil => simp [Memory.insert, Memory.read_cons]
  | cons cell rest ih =>
    obtain ⟨k, u⟩ := cell
    have hk : k ≠ a := h (k, u) (by simp)
    have ih := ih fun cell hc => h cell (by simp [hc])
    unfold Memory.insert
    split
    · simp [Memory.read_cons]
    · rw [Memory.read_cons, ih, Memory.read_cons]
      by_cases hkb : k = b
      · have : a ≠ b := fun e => hk (hkb.trans e.symm)
        simp [hkb, this]
      · simp [hkb]

/-- No entry of an erased address is left. -/
theorem Memory.erase_ne (m : List (Nat × α)) (a : Nat) : ∀ cell ∈ Memory.erase m a, cell.1 ≠ a := by
  intro cell hc
  simpa [Memory.erase] using (List.mem_filter.mp hc).2

/-- A read after a write: the written address reads as written, every other as before. -/
theorem Memory.read_write [DecidableEq α] (m : List (Nat × α)) (a : Nat) (v : α) (b : Nat) :
    Memory.read dflt (Memory.write dflt m a v) b = if a = b then v else Memory.read dflt m b := by
  unfold Memory.write
  split
  · by_cases h : a = b
    · subst h; simp_all [Memory.read_erase_same]
    · simp [h, Memory.read_erase_other dflt m (Ne.symm h)]
  · rw [Memory.read_insert dflt _ _ _ _ (Memory.erase_ne m a)]
    by_cases h : a = b
    · simp [h]
    · simp [h, Memory.read_erase_other dflt m (Ne.symm h)]

/-- An entry of a written memory is an entry of the memory before, or the written one. -/
theorem Memory.mem_write [DecidableEq α] {m : List (Nat × α)} {a : Nat} {v : α} {cell : Nat × α}
    (h : cell ∈ Memory.write dflt m a v) : cell ∈ m ∨ cell = (a, v) := by
  have insert_mem : ∀ m : List (Nat × α), cell ∈ Memory.insert m a v → cell ∈ m ∨ cell = (a, v) := by
    intro m
    induction m with
    | nil => intro h; right; simpa [Memory.insert] using h
    | cons c rest ih =>
      obtain ⟨k, u⟩ := c
      unfold Memory.insert
      split
      · intro h; simpa [or_comm, or_assoc, or_left_comm] using h
      · intro h
        rcases List.mem_cons.mp h with h | h
        · left; simp [h]
        · rcases ih h with h | h
          · left; simp [h]
          · right; exact h
  have of_erase : cell ∈ Memory.erase m a → cell ∈ m := fun h => (List.mem_filter.mp h).1
  unfold Memory.write at h
  split at h
  · exact .inl (of_erase h)
  · exact (insert_mem _ h).imp_left of_erase

/-- An address below every listed one reads as unlisted. -/
theorem Memory.read_of_lt {m : List (Nat × α)} {a : Nat} (h : ∀ cell ∈ m, a < cell.1) : Memory.read dflt m a = dflt := by
  induction m with
  | nil => rfl
  | cons cell rest ih =>
    obtain ⟨k, u⟩ := cell
    have hk : a < k := h (k, u) (by simp)
    rw [Memory.read_cons, if_neg (by omega)]
    exact ih fun c hc => h c (by simp [hc])

variable [DecidableEq α]

theorem Memory.wf_cons (a : Nat) (v : α) (rest : List (Nat × α)) :
    Memory.wf dflt ((a, v) :: rest) = true ↔
      v ≠ dflt ∧ (∀ cell ∈ rest, a < cell.1) ∧ Memory.wf dflt rest = true := by
  simp [Memory.wf, and_assoc]

/-- Erasing keeps the canonical form. -/
theorem Memory.wf_erase {m : List (Nat × α)} (a : Nat) (h : Memory.wf dflt m = true) :
    Memory.wf dflt (Memory.erase m a) = true := by
  induction m with
  | nil => rfl
  | cons cell rest ih =>
    obtain ⟨k, u⟩ := cell
    obtain ⟨hu, hk, hr⟩ := (Memory.wf_cons dflt k u rest).mp h
    by_cases hka : k = a
    · simpa [Memory.erase, hka] using ih hr
    · have he : Memory.erase ((k, u) :: rest) a = (k, u) :: Memory.erase rest a := by simp [Memory.erase, hka]
      rw [he, Memory.wf_cons]
      exact ⟨hu, fun cell hc => hk cell (List.mem_filter.mp hc).1, ih hr⟩

/-- Inserting an entry at an unlisted address keeps the canonical form. -/
theorem Memory.wf_insert {m : List (Nat × α)} {a : Nat} {v : α} (hv : v ≠ dflt) (ha : ∀ cell ∈ m, cell.1 ≠ a)
    (h : Memory.wf dflt m = true) : Memory.wf dflt (Memory.insert m a v) = true := by
  have lower : ∀ (m : List (Nat × α)) (k : Nat), k < a → (∀ cell ∈ m, k < cell.1) →
      ∀ cell ∈ Memory.insert m a v, k < cell.1 := by
    intro m k hk
    induction m with
    | nil => intro _ cell hc; simp [Memory.insert] at hc; simpa [hc] using hk
    | cons c rest ih =>
      obtain ⟨b, u⟩ := c
      intro hm cell hc
      unfold Memory.insert at hc
      split at hc
      · rcases List.mem_cons.mp hc with hc | hc
        · simpa [hc] using hk
        · exact hm cell hc
      · rcases List.mem_cons.mp hc with hc | hc
        · exact hm cell (by simp [hc])
        · exact ih (fun c hc => hm c (by simp [hc])) cell hc
  induction m with
  | nil => simp [Memory.insert, Memory.wf, hv]
  | cons cell rest ih =>
    obtain ⟨k, u⟩ := cell
    obtain ⟨hu, hk, hr⟩ := (Memory.wf_cons dflt k u rest).mp h
    have hka : k ≠ a := ha (k, u) (by simp)
    unfold Memory.insert
    split
    · rename_i hlt
      rw [Memory.wf_cons]
      refine ⟨hv, fun cell hc => ?_, h⟩
      rcases List.mem_cons.mp hc with hc | hc
      · simpa [hc] using hlt
      · exact hlt.trans (hk cell hc)
    · rw [Memory.wf_cons]
      exact ⟨hu, lower rest k (by omega) hk, ih (fun c hc => ha c (by simp [hc])) hr⟩

/-- A write keeps the canonical form. -/
theorem Memory.wf_write {m : List (Nat × α)} (a : Nat) (v : α) (h : Memory.wf dflt m = true) :
    Memory.wf dflt (Memory.write dflt m a v) = true := by
  unfold Memory.write
  split
  · exact Memory.wf_erase dflt a h
  · rename_i hv
    exact Memory.wf_insert dflt hv (Memory.erase_ne m a) (Memory.wf_erase dflt a h)

/-- A write below the bound keeps every address below it. -/
theorem Memory.below_write {m : List (Nat × α)} {bound a : Nat} (v : α) (ha : a < bound) (h : Memory.below bound m = true) :
    Memory.below bound (Memory.write dflt m a v) = true := by
  simp only [Memory.below, List.all_eq_true, decide_eq_true_eq] at h ⊢
  intro cell hc
  rcases Memory.mem_write dflt hc with hc | hc
  · exact h cell hc
  · simpa [hc] using ha

/-- Writing a list of cells keeps the canonical form. -/
theorem Memory.wf_writeAll (cells : List (Nat × α)) {m : List (Nat × α)} (h : Memory.wf dflt m = true) :
    Memory.wf dflt (Memory.writeAll dflt m cells) = true := by
  unfold Memory.writeAll
  induction cells generalizing m with
  | nil => exact h
  | cons cell rest ih => exact ih (Memory.wf_write dflt cell.1 cell.2 h)

/-- Writing cells below the bound keeps every address below it. -/
theorem Memory.below_writeAll {bound : Nat} (cells : List (Nat × α)) (hc : ∀ cell ∈ cells, cell.1 < bound)
    {m : List (Nat × α)} (h : Memory.below bound m = true) : Memory.below bound (Memory.writeAll dflt m cells) = true := by
  unfold Memory.writeAll
  induction cells generalizing m with
  | nil => exact h
  | cons cell rest ih =>
    exact ih (fun c hm => hc c (by simp [hm])) (Memory.below_write dflt cell.2 (hc cell (by simp)) h)

/-- Two memories in canonical form that read alike at every address are the same list. -/
theorem Memory.ext_of_read {m n : List (Nat × α)} (hm : Memory.wf dflt m = true) (hn : Memory.wf dflt n = true)
    (h : ∀ a, Memory.read dflt m a = Memory.read dflt n a) : m = n := by
  induction m generalizing n with
  | nil =>
    cases n with
    | nil => rfl
    | cons cell rest =>
      obtain ⟨k, u⟩ := cell
      have hu := ((Memory.wf_cons dflt k u rest).mp hn).1
      have := h k
      simp [Memory.read_cons] at this
      exact absurd this.symm hu
  | cons cell rest ih =>
    obtain ⟨k, u⟩ := cell
    obtain ⟨hu, hk, hr⟩ := (Memory.wf_cons dflt k u rest).mp hm
    cases n with
    | nil =>
      have := h k
      simp [Memory.read_cons] at this
      exact absurd this hu
    | cons cell' rest' =>
      obtain ⟨k', u'⟩ := cell'
      obtain ⟨hu', hk', hr'⟩ := (Memory.wf_cons dflt k' u' rest').mp hn
      have hkk : k = k' := by
        rcases Nat.lt_trichotomy k k' with hlt | heq | hgt
        · have := h k
          rw [Memory.read_cons, if_pos rfl, Memory.read_of_lt] at this
          · exact absurd this hu
          · intro c hc
            rcases List.mem_cons.mp hc with hc | hc
            · simpa [hc] using hlt
            · exact hlt.trans (hk' c hc)
        · exact heq
        · have := h k'
          rw [Memory.read_cons dflt k', if_pos rfl, Memory.read_of_lt] at this
          · exact absurd this.symm hu'
          · intro c hc
            rcases List.mem_cons.mp hc with hc | hc
            · simpa [hc] using hgt
            · exact hgt.trans (hk c hc)
      subst hkk
      have huu : u = u' := by simpa [Memory.read_cons] using h k
      subst huu
      congr 1
      refine ih hr hr' fun a => ?_
      by_cases hka : k = a
      · subst hka
        rw [Memory.read_of_lt dflt hk, Memory.read_of_lt dflt hk']
      · simpa [Memory.read_cons, hka] using h a

end

end Sys2Proof.Machine
end

