-- ==== Sys2Proof/Laws/Canvas.lean ====
section
/-! SUPPORT. What a cell write, a block fill and one drawn index do to the canvas. -/

namespace Sys2Proof.Machine

/-- Different cells of the canvas have different linear indexes. -/
theorem cellIndex_inj {scale : BitVec 8} {col row col' row' : Nat} (hc : col < canvasSide scale)
    (hc' : col' < canvasSide scale) : cellIndex scale col row = cellIndex scale col' row' ↔ col = col' ∧ row = row' := by
  constructor
  · intro h
    unfold cellIndex at h
    have hrow : row = row' := by
      have h1 : (row * canvasSide scale + col) / canvasSide scale = row := by
        rw [Nat.mul_comm, Nat.mul_add_div (by omega), Nat.div_eq_of_lt hc]; rfl
      have h2 : (row' * canvasSide scale + col') / canvasSide scale = row' := by
        rw [Nat.mul_comm, Nat.mul_add_div (by omega), Nat.div_eq_of_lt hc']; rfl
      rw [← h1, h, h2]
    subst hrow
    exact ⟨by omega, rfl⟩
  · rintro ⟨rfl, rfl⟩; rfl

/-- Every cell's linear index is below the number of cells. -/
theorem cellIndex_lt {scale : BitVec 8} {col row : Nat} (hc : col < canvasSide scale) (hr : row < canvasSide scale) :
    cellIndex scale col row < canvasSide scale * canvasSide scale := by
  unfold cellIndex
  calc row * canvasSide scale + col < row * canvasSide scale + canvasSide scale := by omega
    _ = (row + 1) * canvasSide scale := by ring
    _ ≤ canvasSide scale * canvasSide scale := Nat.mul_le_mul_right _ hr

/-- A cell write changes its own cell and no other. -/
theorem readCell_writeCell {scale : BitVec 8} {col row col' row' : Nat} (color : Color) (canvas : List (Nat × Color))
    (hc : col < canvasSide scale) (hc' : col' < canvasSide scale) :
    readCell scale col' row' (writeCell scale col row color canvas) =
      if col = col' ∧ row = row' then color else readCell scale col' row' canvas := by
  unfold readCell writeCell
  rw [Memory.read_write]
  simp only [cellIndex_inj hc hc']

/-- A canvas column or row of a block stays below W (spec 42_pixel_rasterizer.md R121). -/
theorem block_lt {scale : BitVec 8} {x d : Nat} (hx : x < 32) (hd : d < scale.toNat) :
    x * scale.toNat + d < canvasSide scale := by
  unfold canvasSide
  simp only [Config.iconSide]
  calc x * scale.toNat + d < x * scale.toNat + scale.toNat := by omega
    _ = (x + 1) * scale.toNat := by ring
    _ ≤ 32 * scale.toNat := Nat.mul_le_mul_right _ hx

/-- The offset of a column or row from the start of a block. -/
theorem block_offset {S x col : Nat} : (∃ d, d < S ∧ x * S + d = col) ↔ 0 < S ∧ col / S = x := by
  constructor
  · rintro ⟨d, hd, rfl⟩
    refine ⟨by omega, ?_⟩
    rw [Nat.mul_comm, Nat.mul_add_div (by omega), Nat.div_eq_of_lt hd]; rfl
  · rintro ⟨hS, rfl⟩
    refine ⟨col % S, Nat.mod_lt _ hS, ?_⟩
    rw [Nat.mul_comm]; exact Nat.div_add_mod col S

theorem offset_lt_succ {a n b : Nat} : (∃ d, d < n + 1 ∧ a + d = b) ↔ (∃ d, d < n ∧ a + d = b) ∨ a + n = b := by
  constructor
  · rintro ⟨d, hd, e⟩
    rcases Nat.lt_succ_iff_lt_or_eq.mp hd with h | rfl
    · exact .inl ⟨d, h, e⟩
    · exact .inr e
  · rintro (⟨d, hd, e⟩ | e)
    · exact ⟨d, by omega, e⟩
    · exact ⟨n, by omega, e⟩

/-- One row of a block. -/
theorem readCell_blockRow {scale : BitVec 8} {x row : Nat} (color : Color) (n : Nat) (hn : n ≤ scale.toNat) (hx : x < 32)
    {col' row' : Nat} (hc' : col' < canvasSide scale) (canvas : List (Nat × Color)) :
    readCell scale col' row' ((List.range n).foldl
        (fun acc dx => writeCell scale (x * scale.toNat + dx) row color acc) canvas) =
      if (∃ dx, dx < n ∧ x * scale.toNat + dx = col') ∧ row = row' then color else readCell scale col' row' canvas := by
  induction n with
  | zero => simp
  | succ n ih =>
    rw [List.range_succ, List.foldl_append, List.foldl_cons, List.foldl_nil,
      readCell_writeCell _ _ (block_lt hx (by omega)) hc', ih (by omega)]
    simp only [offset_lt_succ]
    by_cases hc : x * scale.toNat + n = col' <;> by_cases hr : row = row' <;> simp [hc, hr]

/-- The block fill, said once: the cells with floor(col / S) = x and floor(row / S) = y read as the colour, and every other
cell as before (spec 42_pixel_rasterizer.md R120, R121). -/
theorem readCell_drawBlock {scale : BitVec 8} {x y : Nat} (hx : x < 32) (color : Color)
    (canvas : List (Nat × Color)) {col row : Nat} (hc : col < canvasSide scale) :
    readCell scale col row (drawBlock scale x y color canvas) =
      if 0 < scale.toNat ∧ col / scale.toNat = x ∧ row / scale.toNat = y then color
      else readCell scale col row canvas := by
  have rows : ∀ n, n ≤ scale.toNat →
      readCell scale col row ((List.range n).foldl (fun acc dy => (List.range scale.toNat).foldl
          (fun acc dx => writeCell scale (x * scale.toNat + dx) (y * scale.toNat + dy) color acc) acc) canvas) =
        if (∃ dx, dx < scale.toNat ∧ x * scale.toNat + dx = col) ∧ (∃ dy, dy < n ∧ y * scale.toNat + dy = row) then color
        else readCell scale col row canvas := by
    intro n
    induction n with
    | zero => simp
    | succ n ih =>
      intro hn
      rw [List.range_succ, List.foldl_append, List.foldl_cons, List.foldl_nil,
        readCell_blockRow color _ le_rfl hx hc, ih (by omega)]
      simp only [offset_lt_succ]
      by_cases hcol : ∃ dx, dx < scale.toNat ∧ x * scale.toNat + dx = col <;>
        by_cases hr : y * scale.toNat + n = row <;> simp [hcol, hr]
  unfold drawBlock
  rw [rows _ le_rfl]
  simp only [block_offset]
  congr 1
  simp only [eq_iff_iff]
  tauto

/-- The logical column or row of a cell is inside the icon. -/
theorem logical_lt {scale : BitVec 8} {col : Nat} (hc : col < canvasSide scale) : col / scale.toNat < 32 := by
  unfold canvasSide at hc
  exact Nat.div_lt_of_lt_mul (by rw [Nat.mul_comm]; exact hc)

/-- Two canvases in canonical form are the same list when every cell reads alike, and so does every address that is no
cell. -/
theorem canvas_ext {scale : BitVec 8} {m n : List (Nat × Color)} (hm : Memory.wf Config.background m = true)
    (hn : Memory.wf Config.background n = true)
    (cells : ∀ col row, col < canvasSide scale → row < canvasSide scale →
      readCell scale col row m = readCell scale col row n)
    (rest : ∀ a, canvasSide scale * canvasSide scale ≤ a →
      Memory.read Config.background m a = Memory.read Config.background n a) : m = n := by
  refine Memory.ext_of_read _ hm hn fun a => ?_
  by_cases ha : canvasSide scale * canvasSide scale ≤ a
  · exact rest a ha
  · have hW : 0 < canvasSide scale := by
      rcases Nat.eq_zero_or_pos (canvasSide scale) with h | h
      · rw [h] at ha; omega
      · exact h
    have := cells (a % canvasSide scale) (a / canvasSide scale) (Nat.mod_lt _ hW) (Nat.div_lt_of_lt_mul (by omega))
    unfold readCell cellIndex at this
    rwa [Nat.mul_comm, Nat.div_add_mod] at this

/-- What every cell write keeps, a block fill keeps. -/
theorem drawBlock_keeps {scale : BitVec 8} {x y : Nat} {color : Color} {canvas : List (Nat × Color)}
    (P : List (Nat × Color) → Prop) (h0 : P canvas)
    (hw : ∀ acc dx dy, dx < scale.toNat → dy < scale.toNat → P acc →
      P (writeCell scale (x * scale.toNat + dx) (y * scale.toNat + dy) color acc)) :
    P (drawBlock scale x y color canvas) := by
  unfold drawBlock
  refine List.foldlRecOn (motive := P) _ _ h0 fun acc hacc dy hdy => ?_
  refine List.foldlRecOn (motive := P) _ _ hacc fun acc hacc dx hdx => ?_
  exact hw acc dx dy (List.mem_range.mp hdx) (List.mem_range.mp hdy) hacc

/-- A block fill changes no address of the canvas memory but those of its own cells. -/
theorem read_drawBlock_outside {scale : BitVec 8} {x y : Nat} {color : Color} {canvas : List (Nat × Color)} {a : Nat}
    (h : ∀ dx dy, dx < scale.toNat → dy < scale.toNat →
      a ≠ cellIndex scale (x * scale.toNat + dx) (y * scale.toNat + dy)) :
    Memory.read Config.background (drawBlock scale x y color canvas) a = Memory.read Config.background canvas a :=
  drawBlock_keeps (fun acc => Memory.read Config.background acc a = Memory.read Config.background canvas a) rfl
    fun acc dx dy hx hy hacc => by rw [writeCell, Memory.read_write, if_neg (Ne.symm (h dx dy hx hy))]; exact hacc

/-- A block fill keeps the canonical form. -/
theorem wf_drawBlock {scale : BitVec 8} {x y : Nat} {color : Color} {canvas : List (Nat × Color)}
    (h : Memory.wf Config.background canvas = true) :
    Memory.wf Config.background (drawBlock scale x y color canvas) = true :=
  drawBlock_keeps (Memory.wf Config.background · = true) h fun _ _ _ _ _ h => Memory.wf_write _ _ _ h

/-- A block fill writes no cell outside the canvas (spec 42_pixel_rasterizer.md R121). -/
theorem below_drawBlock {scale : BitVec 8} {x y : Nat} (hx : x < 32) (hy : y < 32) {color : Color}
    {canvas : List (Nat × Color)} (h : Memory.below (canvasSide scale * canvasSide scale) canvas = true) :
    Memory.below (canvasSide scale * canvasSide scale) (drawBlock scale x y color canvas) = true :=
  drawBlock_keeps (Memory.below (canvasSide scale * canvasSide scale) · = true) h fun _ _ _ hdx hdy h =>
    Memory.below_write _ _ (cellIndex_lt (block_lt hx hdx) (block_lt hy hdy)) h

/-- A block fill lists no colour but its own and those that were there. -/
theorem mem_drawBlock {scale : BitVec 8} {x y : Nat} {color : Color} {canvas : List (Nat × Color)} {cell : Nat × Color}
    (h : cell ∈ drawBlock scale x y color canvas) : cell ∈ canvas ∨ cell.2 = color :=
  drawBlock_keeps (canvas := canvas) (fun acc => ∀ cell ∈ acc, cell ∈ canvas ∨ cell.2 = color) (fun _ h => .inl h)
    (fun _ _ _ _ _ hacc cell hc => (Memory.mem_write _ hc).elim (hacc cell) fun e => .inr (by rw [e])) cell h

/-- Index 0 draws nothing (spec 41_bitmap_tile_decoder.md R104). -/
@[simp] theorem drawIndex_transparent (palette : Vector Hword 16) (scale : BitVec 8) (x y : Nat)
    (canvas : List (Nat × Color)) : drawIndex palette scale x y 0#4 canvas = canvas := rfl

/-- Any other index draws the block of its palette entry's colour (R105). -/
theorem drawIndex_opaque (palette : Vector Hword 16) (scale : BitVec 8) (x y : Nat) {i : BitVec 4} (h : i ≠ 0#4)
    (canvas : List (Nat × Color)) :
    drawIndex palette scale x y i canvas = drawBlock scale x y (decodeColor (palette[i.toNat]'(i.isLt))) canvas := by
  simp [drawIndex, h]

/-- The place of a byte in the bitmap, in numbers (R101). -/
theorem byteIndex_eq (c p : Nat) : byteIndex c p = 32 * c + p := rfl

/-- The step for one byte, in numbers (R106). -/
theorem unpackByte_eq (bitmap : Vector Byte 512) (palette : Vector Hword 16) (scale : BitVec 8) (c : Fin 16) (p : Fin 32)
    (canvas : List (Nat × Color)) :
    unpackByte bitmap palette scale c p canvas =
      drawIndex palette scale (pixelX c.val p.val + 1) (pixelY c.val p.val)
        (rightIndex (bitmap[32 * c.val + p.val]'(by omega)))
        (drawIndex palette scale (pixelX c.val p.val) (pixelY c.val p.val)
          (leftIndex (bitmap[32 * c.val + p.val]'(by omega))) canvas) := rfl

/-- The scan of UNPACK, in numbers (R107). -/
theorem unpackCanvas_eq (bitmap : Vector Byte 512) (palette : Vector Hword 16) (scale : BitVec 8)
    (canvas : List (Nat × Color)) :
    unpackCanvas bitmap palette scale canvas = (List.finRange 16).foldl
      (fun acc c => (List.finRange 32).foldl (fun acc p => unpackByte bitmap palette scale c p acc) acc) canvas := rfl

/-- The column of a byte's left pixel, in numbers (R103). -/
theorem pixelX_eq (c p : Nat) : pixelX c p = c * 8 % 32 + p * 2 % 8 := rfl

/-- The row of a byte's pixels, in numbers (R103). -/
theorem pixelY_eq (c p : Nat) : pixelY c p = c / 4 * 8 + p / 4 := rfl

/-- Both pixels of a byte are in columns of the icon (R103). -/
theorem pixelX_succ_lt (c p : Nat) : pixelX c p + 1 < 32 := by
  rw [pixelX_eq]
  omega

/-- Both pixels of a byte are in a row of the icon (R103). -/
theorem pixelY_lt (c : Fin Config.chunks) (p : Fin Config.chunkBytes) : pixelY c.val p.val < 32 := by
  have hc : c.val < 16 := c.isLt
  have hp : p.val < 32 := p.isLt
  rw [pixelY_eq]
  omega

/-- What every block fill keeps, UNPACK keeps. The coordinates it draws at are inside the icon (R103). -/
theorem unpackCanvas_keeps {bitmap : Vector Byte 512} {palette : Vector Hword 16} {scale : BitVec 8}
    {canvas : List (Nat × Color)} (P : List (Nat × Color) → Prop) (h0 : P canvas)
    (hd : ∀ acc x y (i : BitVec 4), x < 32 → y < 32 → i ≠ 0#4 → P acc →
      P (drawBlock scale x y (decodeColor (palette[i.toNat]'(i.isLt))) acc)) :
    P (unpackCanvas bitmap palette scale canvas) := by
  have index : ∀ acc x y (i : BitVec 4), x < 32 → y < 32 → P acc → P (drawIndex palette scale x y i acc) := by
    intro acc x y i hx hy h
    by_cases hi : i = 0#4
    · subst hi; exact h
    · rw [drawIndex_opaque _ _ _ _ hi]; exact hd acc x y i hx hy hi h
  unfold unpackCanvas
  refine List.foldlRecOn (motive := P) _ _ h0 fun acc hacc c _ => ?_
  refine List.foldlRecOn (motive := P) _ _ hacc fun acc hacc p _ => ?_
  have hx := pixelX_succ_lt c.val p.val
  have hy := pixelY_lt c p
  exact index _ _ _ _ hx hy (index _ _ _ _ (by omega) hy hacc)

end Sys2Proof.Machine
end

