-- ==== Sys2Proof/Laws/Decode.lean ====
section
/-! SUPPORT. The fields of a word that was put together from fields, a word put together from its own fields, and what the
decoder answers for each opcode. -/

namespace Sys2Proof

section
variable (op : BitVec 8) (w : BitVec 16) (x y : BitVec 5) (s : BitVec 8)

@[simp] theorem opcodeOf_wordN : opcodeOf (wordN op) = op := by
  ext i hi
  simp [opcodeOf, wordN]
  grind

@[simp] theorem opcodeOf_wordW : opcodeOf (wordW op w) = op := by
  ext i hi
  simp [opcodeOf, wordW]
  grind

@[simp] theorem opcodeOf_wordP : opcodeOf (wordP op x y) = op := by
  ext i hi
  simp [opcodeOf, wordP]
  grind

@[simp] theorem opcodeOf_wordS : opcodeOf (wordS op s) = op := by
  ext i hi
  simp [opcodeOf, wordS]
  grind

@[simp] theorem reservedN_wordN : reservedN (wordN op) = 0#24 := by
  ext i hi
  simp [reservedN, wordN]
  grind

@[simp] theorem reservedW_wordW : reservedW (wordW op w) = 0#8 := by
  ext i hi
  simp [reservedW, wordW]
  grind

@[simp] theorem reservedP_wordP : reservedP (wordP op x y) = 0#14 := by
  ext i hi
  simp [reservedP, wordP]
  grind

@[simp] theorem reservedS_wordS : reservedS (wordS op s) = 0#16 := by
  ext i hi
  simp [reservedS, wordS]
  grind

@[simp] theorem fieldW_wordW : fieldW (wordW op w) = w := by
  ext i hi
  simp [fieldW, wordW]
  grind

@[simp] theorem fieldX_wordP : fieldX (wordP op x y) = x := by
  ext i hi
  simp [fieldX, wordP]
  grind

@[simp] theorem fieldY_wordP : fieldY (wordP op x y) = y := by
  ext i hi
  simp [fieldY, wordP]
  grind

@[simp] theorem fieldS_wordS : fieldS (wordS op s) = s := by
  ext i hi
  simp [fieldS, wordS]
  grind

end

section
variable (cmd : Word)

/-- A word is its fields, in the layout of each format. -/
theorem split_wordN : cmd = opcodeOf cmd ++ reservedN cmd := by
  ext i hi
  simp [opcodeOf, reservedN]
  grind

theorem split_wordW : cmd = opcodeOf cmd ++ reservedW cmd ++ fieldW cmd := by
  ext i hi
  simp [opcodeOf, reservedW, fieldW]
  grind

theorem split_wordP : cmd = opcodeOf cmd ++ reservedP cmd ++ fieldY cmd ++ fieldX cmd := by
  ext i hi
  simp [opcodeOf, reservedP, fieldX, fieldY]
  grind

theorem split_wordS : cmd = opcodeOf cmd ++ reservedS cmd ++ fieldS cmd := by
  ext i hi
  simp [opcodeOf, reservedS, fieldS]
  grind

end

section
variable {cmd : Word} {op : BitVec 8}

/-- A word whose reserved bits are 0 is put together from its own fields. -/
theorem wordN_of_fields (ho : opcodeOf cmd = op) (h : reservedN cmd = 0#24) : wordN op = cmd := by
  conv_rhs => rw [split_wordN cmd, h, ho]
  rfl

theorem wordW_of_fields (ho : opcodeOf cmd = op) (h : reservedW cmd = 0#8) : wordW op (fieldW cmd) = cmd := by
  conv_rhs => rw [split_wordW cmd, h, ho]
  rfl

theorem wordP_of_fields (ho : opcodeOf cmd = op) (h : reservedP cmd = 0#14) :
    wordP op (fieldX cmd) (fieldY cmd) = cmd := by
  conv_rhs => rw [split_wordP cmd, h, ho]
  rfl

theorem wordS_of_fields (ho : opcodeOf cmd = op) (h : reservedS cmd = 0#16) : wordS op (fieldS cmd) = cmd := by
  conv_rhs => rw [split_wordS cmd, h, ho]
  rfl

end

/-- The mask of a format's row keeps the opcode and drops the operands. -/
theorem masked_wordW (op : BitVec 8) (w : BitVec 16) : wordW op w &&& 0xFFFF0000#32 = wordN op := by
  have mask : (0xFFFF0000#32 : Word) = (0xFF#8 ++ 0xFF#8 : BitVec 16) ++ 0#16 := by decide
  have top : op &&& 0xFF#8 = op := BitVec.and_allOnes (x := op)
  unfold wordN wordW
  rw [mask, BitVec.and_append, BitVec.and_append, top, BitVec.zero_and, BitVec.and_zero]
  ext i hi
  simp
  grind

theorem masked_wordP (op : BitVec 8) (x y : BitVec 5) : wordP op x y &&& 0xFFFFFC00#32 = wordN op := by
  have mask : (0xFFFFFC00#32 : Word) = ((0xFF#8 ++ 0x3FFF#14 : BitVec 22) ++ 0#5 : BitVec 27) ++ 0#5 := by decide
  have top : op &&& 0xFF#8 = op := BitVec.and_allOnes (x := op)
  unfold wordN wordP
  rw [mask, BitVec.and_append, BitVec.and_append, BitVec.and_append, top, BitVec.zero_and, BitVec.and_zero,
    BitVec.and_zero]
  ext i hi
  simp
  grind

theorem masked_wordS (op s : BitVec 8) : wordS op s &&& 0xFFFFFF00#32 = wordN op := by
  have mask : (0xFFFFFF00#32 : Word) = (0xFF#8 ++ 0xFFFF#16 : BitVec 24) ++ 0#8 := by decide
  have top : op &&& 0xFF#8 = op := BitVec.and_allOnes (x := op)
  unfold wordN wordS
  rw [mask, BitVec.and_append, BitVec.and_append, top, BitVec.zero_and, BitVec.and_zero]
  ext i hi
  simp
  grind

/-- The fields of a masked word are masked fields. -/
theorem opcodeOf_and (a b : Word) : opcodeOf (a &&& b) = opcodeOf a &&& opcodeOf b := BitVec.extractLsb'_and ..

theorem reservedW_and (a b : Word) : reservedW (a &&& b) = reservedW a &&& reservedW b := BitVec.extractLsb'_and ..

theorem reservedP_and (a b : Word) : reservedP (a &&& b) = reservedP a &&& reservedP b := BitVec.extractLsb'_and ..

theorem reservedS_and (a b : Word) : reservedS (a &&& b) = reservedS a &&& reservedS b := BitVec.extractLsb'_and ..

theorem reservedW_wordN (op : BitVec 8) : reservedW (wordN op) = 0#8 := by
  ext i hi
  simp [reservedW, wordN]
  grind

theorem reservedP_wordN (op : BitVec 8) : reservedP (wordN op) = 0#14 := by
  ext i hi
  simp [reservedP, wordN]
  grind

theorem reservedS_wordN (op : BitVec 8) : reservedS (wordN op) = 0#16 := by
  ext i hi
  simp [reservedS, wordN]
  grind

section
variable {cmd : Word} {op : BitVec 8}

/-- A row's test `cmd & mask = match`, said by the fields of its format. -/
theorem matches_formatN : cmd &&& 0xFFFFFFFF#32 = wordN op ↔ opcodeOf cmd = op ∧ reservedN cmd = 0#24 := by
  rw [show cmd &&& 0xFFFFFFFF#32 = cmd from BitVec.and_allOnes (x := cmd)]
  constructor
  · rintro rfl; simp
  · rintro ⟨ho, hr⟩; exact (wordN_of_fields ho hr).symm

theorem matches_formatW : cmd &&& 0xFFFF0000#32 = wordN op ↔ opcodeOf cmd = op ∧ reservedW cmd = 0#8 := by
  constructor
  · intro h
    have ho := congrArg opcodeOf h
    have hr := congrArg reservedW h
    rw [opcodeOf_and, opcodeOf_wordN, show opcodeOf 0xFFFF0000#32 = BitVec.allOnes 8 by decide, BitVec.and_allOnes] at ho
    rw [reservedW_and, reservedW_wordN, show reservedW 0xFFFF0000#32 = BitVec.allOnes 8 by decide,
      BitVec.and_allOnes] at hr
    exact ⟨ho, hr⟩
  · rintro ⟨ho, hr⟩
    rw [← wordW_of_fields ho hr, masked_wordW]

theorem matches_formatP : cmd &&& 0xFFFFFC00#32 = wordN op ↔ opcodeOf cmd = op ∧ reservedP cmd = 0#14 := by
  constructor
  · intro h
    have ho := congrArg opcodeOf h
    have hr := congrArg reservedP h
    rw [opcodeOf_and, opcodeOf_wordN, show opcodeOf 0xFFFFFC00#32 = BitVec.allOnes 8 by decide, BitVec.and_allOnes] at ho
    rw [reservedP_and, reservedP_wordN, show reservedP 0xFFFFFC00#32 = BitVec.allOnes 14 by decide,
      BitVec.and_allOnes] at hr
    exact ⟨ho, hr⟩
  · rintro ⟨ho, hr⟩
    rw [← wordP_of_fields ho hr, masked_wordP]

theorem matches_formatS : cmd &&& 0xFFFFFF00#32 = wordN op ↔ opcodeOf cmd = op ∧ reservedS cmd = 0#16 := by
  constructor
  · intro h
    have ho := congrArg opcodeOf h
    have hr := congrArg reservedS h
    rw [opcodeOf_and, opcodeOf_wordN, show opcodeOf 0xFFFFFF00#32 = BitVec.allOnes 8 by decide, BitVec.and_allOnes] at ho
    rw [reservedS_and, reservedS_wordN, show reservedS 0xFFFFFF00#32 = BitVec.allOnes 16 by decide,
      BitVec.and_allOnes] at hr
    exact ⟨ho, hr⟩
  · rintro ⟨ho, hr⟩
    rw [← wordS_of_fields ho hr, masked_wordS]

end

/-- The strict check accepts its command exactly when the reserved bits are 0. -/
theorem strict_eq_ok {n : Nat} {op : BitVec 8} {reserved : BitVec n} {i j : Instr} :
    strict op reserved i = .ok j ↔ reserved = 0#n ∧ i = j := by
  unfold strict
  split <;> simp_all

/-- Everything the decoder accepts, said once. -/
theorem decode_eq_ok {cmd : Word} {i : Instr} : decode cmd = .ok i ↔
    (opcodeOf cmd = 0x01#8 ∧ reservedW cmd = 0#8 ∧ i = .expand (fieldW cmd)) ∨
    (opcodeOf cmd = 0x02#8 ∧ reservedN cmd = 0#24 ∧ i = .unpack) ∨
    (opcodeOf cmd = 0x03#8 ∧ reservedP cmd = 0#14 ∧ i = .drawpx (fieldX cmd) (fieldY cmd)) ∨
    (opcodeOf cmd = 0x04#8 ∧ reservedN cmd = 0#24 ∧ i = .resolve) ∨
    (opcodeOf cmd = 0x05#8 ∧ reservedN cmd = 0#24 ∧ i = .sliceb) ∨
    (opcodeOf cmd = 0x06#8 ∧ reservedN cmd = 0#24 ∧ i = .slicep) ∨
    (opcodeOf cmd = 0x07#8 ∧ reservedS cmd = 0#16 ∧ i = .clear (fieldS cmd)) ∨
    (opcodeOf cmd = 0x08#8 ∧ reservedS cmd = 0#16 ∧ i = .extract (fieldS cmd)) := by
  constructor
  · intro h
    unfold decode at h
    simp only at h
    repeat' split at h
    all_goals first
      | (obtain ⟨hr, rfl⟩ := strict_eq_ok.mp h; simp_all)
      | simp at h
  · rintro (⟨ho, hr, rfl⟩ | ⟨ho, hr, rfl⟩ | ⟨ho, hr, rfl⟩ | ⟨ho, hr, rfl⟩ | ⟨ho, hr, rfl⟩ | ⟨ho, hr, rfl⟩ | ⟨ho, hr, rfl⟩ |
      ⟨ho, hr, rfl⟩) <;> simp [decode, strict, ho, hr]

end Sys2Proof
end

