-- ==== Sys2Proof/Laws/PerInstr.lean ====
section
/-! SUPPORT. Facts about every command as it is written: its word satisfies its row of the opcode map (spec 30_encoding.md
R62). -/

namespace Sys2Proof.Laws.MatchesItsRow

/-- The match and mask of the command's row (R62). -/
def row : Instr → Word × Word
  | .expand _ => (0x01000000#32, 0xFFFF0000#32)
  | .unpack => (0x02000000#32, 0xFFFFFFFF#32)
  | .drawpx _ _ => (0x03000000#32, 0xFFFFFC00#32)
  | .resolve => (0x04000000#32, 0xFFFFFFFF#32)
  | .sliceb => (0x05000000#32, 0xFFFFFFFF#32)
  | .slicep => (0x06000000#32, 0xFFFFFFFF#32)
  | .clear _ => (0x07000000#32, 0xFFFFFF00#32)
  | .extract _ => (0x08000000#32, 0xFFFFFF00#32)

/-- `cmd & mask = match` for the command's own word. -/
def Statement (i : Instr) : Prop := encode i &&& (row i).2 = (row i).1

theorem expand (w : BitVec 16) : Statement (.expand w) := Sys2Proof.masked_wordW 0x01#8 w
theorem unpack : Statement .unpack := rfl
theorem drawpx (x y : BitVec 5) : Statement (.drawpx x y) := Sys2Proof.masked_wordP 0x03#8 x y
theorem resolve : Statement .resolve := rfl
theorem sliceb : Statement .sliceb := rfl
theorem slicep : Statement .slicep := rfl
theorem clear (s : BitVec 8) : Statement (.clear s) := Sys2Proof.masked_wordS 0x07#8 s
theorem extract (s : BitVec 8) : Statement (.extract s) := Sys2Proof.masked_wordS 0x08#8 s

end Sys2Proof.Laws.MatchesItsRow
end

