-- ==== Sys2Proof/Laws/Rom.lean ====
section
/-! SUPPORT. What a read of the ROM space and a copy out of it can answer. -/

namespace Sys2Proof.Machine

/-- A byte exists exactly below `ROM_LEN`. -/
theorem Image.byte?_eq_some {img : Image} {a : Nat} {b : Byte} :
    img.byte? a = some b ↔ a < img.size ∧ Memory.read 0#8 img.cells a = b := by
  unfold Image.byte?
  split <;> simp_all

theorem Image.byte?_isSome {img : Image} {a : Nat} (h : a < img.size) : ∃ b, img.byte? a = some b :=
  ⟨_, Image.byte?_eq_some.mpr ⟨h, rfl⟩⟩

/-- `MemRead(addr, n + 1)` is the byte at `addr` and `MemRead(addr + 1, n)` above it. -/
theorem Image.memRead_succ {img : Image} {addr n v : Nat} :
    img.memRead addr (n + 1) = some v ↔
      ∃ b high, img.byte? addr = some b ∧ img.memRead (addr + 1) n = some high ∧ v = b.toNat + high * 256 := by
  simp only [Image.memRead]
  split
  · rename_i b high hb hh
    simp only [Nat.shiftLeft_eq, Option.some.injEq, hb, hh]
    constructor
    · rintro rfl; exact ⟨b, high, rfl, rfl, rfl⟩
    · rintro ⟨_, _, rfl, rfl, rfl⟩; rfl
  · rename_i h
    simp only [reduceCtorEq, false_iff, not_exists, not_and]
    intro b high hb hh
    exact absurd hh (h b high hb)

@[simp] theorem Image.memRead_zero (img : Image) (addr : Nat) : img.memRead addr 0 = some 0 := rfl

/-- A read inside the image succeeds. -/
theorem Image.memRead_isSome {img : Image} {addr n : Nat} (h : addr + n ≤ img.size) : ∃ v, img.memRead addr n = some v := by
  induction n generalizing addr with
  | zero => exact ⟨0, rfl⟩
  | succ n ih =>
    obtain ⟨b, hb⟩ := Image.byte?_isSome (img := img) (a := addr) (by omega)
    obtain ⟨high, hh⟩ := ih (addr := addr + 1) (by omega)
    exact ⟨_, Image.memRead_succ.mpr ⟨b, high, hb, hh, rfl⟩⟩

/-- `MemRead(addr, 2)` in bytes. -/
theorem Image.memRead_two {img : Image} {addr v : Nat} :
    img.memRead addr 2 = some v ↔
      ∃ b0 b1 : Byte, img.byte? addr = some b0 ∧ img.byte? (addr + 1) = some b1 ∧ v = b0.toNat + 256 * b1.toNat := by
  simp only [Image.memRead_succ, Image.memRead_zero]
  constructor
  · rintro ⟨b0, _, h0, ⟨b1, _, h1, h2, rfl⟩, rfl⟩
    injection h2 with h2; subst h2
    exact ⟨b0, b1, h0, h1, by omega⟩
  · rintro ⟨b0, b1, h0, h1, rfl⟩
    exact ⟨b0, _, h0, ⟨b1, 0, h1, rfl, rfl⟩, by omega⟩

/-- `MemRead(addr, 4)` in bytes. -/
theorem Image.memRead_four {img : Image} {addr v : Nat} :
    img.memRead addr 4 = some v ↔
      ∃ b0 b1 b2 b3 : Byte, img.byte? addr = some b0 ∧ img.byte? (addr + 1) = some b1 ∧ img.byte? (addr + 2) = some b2 ∧
        img.byte? (addr + 3) = some b3 ∧
        v = b0.toNat + 256 * b1.toNat + 65536 * b2.toNat + 16777216 * b3.toNat := by
  rw [Image.memRead_succ]
  simp only [Image.memRead_succ (n := 2), Image.memRead_two, Nat.add_assoc, Nat.reduceAdd]
  constructor
  · rintro ⟨b0, _, h0, ⟨b1, _, h1, ⟨b2, b3, h2, h3, rfl⟩, rfl⟩, rfl⟩
    exact ⟨b0, b1, b2, b3, h0, h1, h2, h3, by omega⟩
  · rintro ⟨b0, b1, b2, b3, h0, h1, h2, h3, rfl⟩
    exact ⟨b0, _, h0, ⟨b1, _, h1, ⟨b2, b3, h2, h3, rfl⟩, rfl⟩, by omega⟩

/-- Four bytes read as one number, the lowest first, are their concatenation, the highest first (spec 20_memory.md R42). -/
theorem pointer_value (b0 b1 b2 b3 : Byte) :
    BitVec.ofNat 32 (b0.toNat + 256 * b1.toNat + 65536 * b2.toNat + 16777216 * b3.toNat) = b3 ++ b2 ++ b1 ++ b0 := by
  apply BitVec.eq_of_toNat_eq
  have h0 := b0.isLt
  have h1 := b1.isLt
  have h2 := b2.isLt
  have h3 := b3.isLt
  simp only [BitVec.toNat_ofNat, BitVec.toNat_append]
  rw [← Nat.shiftLeft_add_eq_or_of_lt h2, ← Nat.shiftLeft_add_eq_or_of_lt h1, ← Nat.shiftLeft_add_eq_or_of_lt h0]
  simp only [Nat.shiftLeft_eq]
  omega

section
variable {α : Type}

theorem gatherFrom_eq_some {f : Nat → Option α} {n i : Nat} {l : { l : List α // l.length = n }} :
    gatherFrom f n i = some l ↔ ∀ k (h : k < n), f (i + k) = some (l.1[k]'(l.2.symm ▸ h)) := by
  induction n generalizing i with
  | zero =>
    obtain ⟨l, hl⟩ := l
    cases List.eq_nil_of_length_eq_zero hl
    simp [gatherFrom]
  | succ n ih =>
    obtain ⟨l, hl⟩ := l
    cases l with
    | nil => simp at hl
    | cons x xs =>
      have hxs : xs.length = n := by simpa using hl
      have ih := ih (i := i + 1) (l := ⟨xs, hxs⟩)
      simp only [gatherFrom]
      constructor
      · intro h
        split at h
        · rename_i y ys hy hys
          injection h with h
          injection h with h
          injection h with h1 h2
          subst h1
          have hys' : gatherFrom f n (i + 1) = some ⟨xs, hxs⟩ := by rw [hys]; congr; exact Subtype.ext h2
          intro k hk
          cases k with
          | zero => simpa using hy
          | succ k =>
            have := ih.mp hys' k (by omega)
            simpa [Nat.add_assoc, Nat.add_comm 1 k] using this
        · simp at h
      · intro h
        have h0 : f i = some x := by simpa using h 0 (by omega)
        have h1 : gatherFrom f n (i + 1) = some ⟨xs, hxs⟩ := by
          refine ih.mpr fun k hk => ?_
          have := h (k + 1) (by omega)
          simpa [Nat.add_assoc, Nat.add_comm 1 k] using this
        rw [h0, h1]

/-- A gathered buffer holds at every place what was asked for there. -/
theorem gather_eq_some {n : Nat} {f : Nat → Option α} {v : Vector α n} :
    gather n f = some v ↔ ∀ k (h : k < n), f k = some v[k] := by
  unfold gather
  constructor
  · intro h
    split at h
    · rename_i l hl
      injection h with h
      subst h
      intro k hk
      have := gatherFrom_eq_some.mp hl k hk
      simpa using this
    · simp at h
  · intro h
    have : gatherFrom f n 0 = some ⟨v.toArray.toList, by simp⟩ :=
      gatherFrom_eq_some.mpr fun k hk => by simpa using h k hk
    rw [this]

/-- A copy succeeds when every element of it can be read. -/
theorem gather_isSome {n : Nat} {f : Nat → Option α} (h : ∀ k, k < n → ∃ x, f k = some x) : ∃ v, gather n f = some v := by
  choose g hg using h
  exact ⟨Vector.ofFn fun i => g i.val i.isLt, gather_eq_some.mpr fun k hk => by simpa using hg k hk⟩

end

/-- A palette entry is two bytes, the lower one first. -/
theorem paletteEntry_eq_some {img : Image} {tileOffset : BitVec 32} {i : Nat} {w : Hword} :
    paletteEntry img tileOffset i = some w ↔
      ∃ b0 b1 : Byte, img.byte? (paletteStart tileOffset + 2 * i) = some b0 ∧
        img.byte? (paletteStart tileOffset + 2 * i + 1) = some b1 ∧ w = b1 ++ b0 := by
  have value : ∀ b0 b1 : Byte, BitVec.ofNat 16 (b0.toNat + 256 * b1.toNat) = b1 ++ b0 := by
    intro b0 b1
    apply BitVec.eq_of_toNat_eq
    have h0 := b0.isLt
    have h1 := b1.isLt
    simp only [BitVec.toNat_ofNat, BitVec.toNat_append]
    rw [← Nat.shiftLeft_add_eq_or_of_lt h0, Nat.shiftLeft_eq]
    omega
  unfold paletteEntry
  constructor
  · intro h
    split at h
    · rename_i v hv
      obtain ⟨b0, b1, h0, h1, rfl⟩ := Image.memRead_two.mp hv
      injection h with h
      exact ⟨b0, b1, h0, h1, h ▸ value b0 b1⟩
    · simp at h
  · rintro ⟨b0, b1, h0, h1, rfl⟩
    have hv : img.memRead (paletteStart tileOffset + Config.paletteEntryBytes * i) Config.paletteEntryBytes =
        some (b0.toNat + 256 * b1.toNat) := Image.memRead_two.mpr ⟨b0, b1, h0, h1, rfl⟩
    rw [hv]
    exact congrArg some (value b0 b1)

/-- What RESOLVE's body can do: take the pointer, or raise. -/
theorem resolveStage_cases (s : State) :
    (0x6C ≤ s.rom.size ∧ ∃ v, s.rom.memRead 0x68 4 = some v ∧
      resolveStage s = .done (s.setTileOffset (BitVec.ofNat 32 v))) ∨
    (s.rom.size < 0x6C ∧ resolveStage s = .raised .outOfBounds s) := by
  by_cases h : 0x6C ≤ s.rom.size
  · obtain ⟨v, hv⟩ := Image.memRead_isSome (img := s.rom) (addr := 0x68) (n := 4) (by omega)
    exact .inl ⟨h, v, hv, by simp [resolveStage, fetchRegion, pointerAddress, Image.inside, h, hv]⟩
  · exact .inr ⟨by omega, by simp [resolveStage, fetchRegion, pointerAddress, Image.inside, h]⟩

/-- What SLICEB's body can do: copy the whole region, or raise. -/
theorem slicebStage_cases (s : State) :
    (s.tileOffset.toNat + 0x220 ≤ s.rom.size ∧ ∃ v : Vector Byte 512,
      (∀ i (h : i < 512), s.rom.byte? (s.tileOffset.toNat + 0x20 + i) = some v[i]) ∧
      slicebStage s = .done (s.setBitmap v)) ∨
    (s.rom.size < s.tileOffset.toNat + 0x220 ∧ slicebStage s = .raised .outOfBounds s) := by
  by_cases h : s.tileOffset.toNat + 0x220 ≤ s.rom.size
  · obtain ⟨v, hv⟩ := gather_isSome (n := 512) (f := bitmapByte s.rom s.tileOffset) fun k hk =>
      Image.byte?_isSome (by simp only [bitmapStart, Config.bitmapOffset]; omega)
    refine .inl ⟨h, v, fun i hi => gather_eq_some.mp hv i hi, ?_⟩
    have hin : s.tileOffset.toNat + 32 + 512 ≤ s.rom.size := by omega
    simp [slicebStage, fetchRegion, Image.inside, bitmapStart, hv, hin]
  · have hin : ¬ s.tileOffset.toNat + 32 + 512 ≤ s.rom.size := by omega
    exact .inr ⟨by omega, by simp [slicebStage, fetchRegion, Image.inside, bitmapStart, hin]⟩

/-- What SLICEP's body can do: copy the whole region, or raise. -/
theorem slicepStage_cases (s : State) :
    (s.tileOffset.toNat + 0x240 ≤ s.rom.size ∧ ∃ v : Vector Hword 16,
      (∀ i (h : i < 16), paletteEntry s.rom s.tileOffset i = some v[i]) ∧ slicepStage s = .done (s.setPalette v)) ∨
    (s.rom.size < s.tileOffset.toNat + 0x240 ∧ slicepStage s = .raised .outOfBounds s) := by
  by_cases h : s.tileOffset.toNat + 0x240 ≤ s.rom.size
  · have entry : ∀ k, k < 16 → ∃ w, paletteEntry s.rom s.tileOffset k = some w := fun k hk => by
      obtain ⟨b0, h0⟩ := Image.byte?_isSome (img := s.rom) (a := paletteStart s.tileOffset + 2 * k)
        (by simp only [paletteStart, Config.colorPaletteOffset]; omega)
      obtain ⟨b1, h1⟩ := Image.byte?_isSome (img := s.rom) (a := paletteStart s.tileOffset + 2 * k + 1)
        (by simp only [paletteStart, Config.colorPaletteOffset]; omega)
      exact ⟨_, paletteEntry_eq_some.mpr ⟨b0, b1, h0, h1, rfl⟩⟩
    obtain ⟨v, hv⟩ := gather_isSome entry
    refine .inl ⟨h, v, fun i hi => gather_eq_some.mp hv i hi, ?_⟩
    have hin : s.tileOffset.toNat + 544 + 32 ≤ s.rom.size := by omega
    simp [slicepStage, fetchRegion, Image.inside, paletteStart, hv, hin]
  · have hin : ¬ s.tileOffset.toNat + 544 + 32 ≤ s.rom.size := by omega
    exact .inr ⟨by omega, by simp [slicepStage, fetchRegion, Image.inside, paletteStart, hin]⟩

end Sys2Proof.Machine
end

