-- ==== Sys2Proof/Laws/State.lean ====
section
/-! SUPPORT. One lemma per field per update of the state, so that no proof unfolds a record update. -/

namespace Sys2Proof.Machine

section
variable (s : State) (v : BitVec 32)
@[simp] theorem State.setTileOffset_tileOffset : (s.setTileOffset v).tileOffset = v := rfl
@[simp] theorem State.setTileOffset_scale : (s.setTileOffset v).scale = s.scale := rfl
@[simp] theorem State.setTileOffset_color : (s.setTileOffset v).color = s.color := rfl
@[simp] theorem State.setTileOffset_err : (s.setTileOffset v).err = s.err := rfl
@[simp] theorem State.setTileOffset_bitmap : (s.setTileOffset v).bitmap = s.bitmap := rfl
@[simp] theorem State.setTileOffset_palette : (s.setTileOffset v).palette = s.palette := rfl
@[simp] theorem State.setTileOffset_canvas : (s.setTileOffset v).canvas = s.canvas := rfl
@[simp] theorem State.setTileOffset_rom : (s.setTileOffset v).rom = s.rom := rfl
@[simp] theorem State.setTileOffset_inputs : (s.setTileOffset v).inputs = s.inputs := rfl
@[simp] theorem State.setTileOffset_responses : (s.setTileOffset v).responses = s.responses := rfl
end

section
variable (s : State) (v : BitVec 8)
@[simp] theorem State.setScale_tileOffset : (s.setScale v).tileOffset = s.tileOffset := rfl
@[simp] theorem State.setScale_scale : (s.setScale v).scale = v := rfl
@[simp] theorem State.setScale_color : (s.setScale v).color = s.color := rfl
@[simp] theorem State.setScale_err : (s.setScale v).err = s.err := rfl
@[simp] theorem State.setScale_bitmap : (s.setScale v).bitmap = s.bitmap := rfl
@[simp] theorem State.setScale_palette : (s.setScale v).palette = s.palette := rfl
@[simp] theorem State.setScale_canvas : (s.setScale v).canvas = s.canvas := rfl
@[simp] theorem State.setScale_rom : (s.setScale v).rom = s.rom := rfl
@[simp] theorem State.setScale_inputs : (s.setScale v).inputs = s.inputs := rfl
@[simp] theorem State.setScale_responses : (s.setScale v).responses = s.responses := rfl
end

section
variable (s : State) (v : Color)
@[simp] theorem State.setColor_tileOffset : (s.setColor v).tileOffset = s.tileOffset := rfl
@[simp] theorem State.setColor_scale : (s.setColor v).scale = s.scale := rfl
@[simp] theorem State.setColor_color : (s.setColor v).color = v := rfl
@[simp] theorem State.setColor_err : (s.setColor v).err = s.err := rfl
@[simp] theorem State.setColor_bitmap : (s.setColor v).bitmap = s.bitmap := rfl
@[simp] theorem State.setColor_palette : (s.setColor v).palette = s.palette := rfl
@[simp] theorem State.setColor_canvas : (s.setColor v).canvas = s.canvas := rfl
@[simp] theorem State.setColor_rom : (s.setColor v).rom = s.rom := rfl
@[simp] theorem State.setColor_inputs : (s.setColor v).inputs = s.inputs := rfl
@[simp] theorem State.setColor_responses : (s.setColor v).responses = s.responses := rfl
end

section
variable (s : State) (v : BitVec 3)
@[simp] theorem State.setErr_tileOffset : (s.setErr v).tileOffset = s.tileOffset := rfl
@[simp] theorem State.setErr_scale : (s.setErr v).scale = s.scale := rfl
@[simp] theorem State.setErr_color : (s.setErr v).color = s.color := rfl
@[simp] theorem State.setErr_err : (s.setErr v).err = v := rfl
@[simp] theorem State.setErr_bitmap : (s.setErr v).bitmap = s.bitmap := rfl
@[simp] theorem State.setErr_palette : (s.setErr v).palette = s.palette := rfl
@[simp] theorem State.setErr_canvas : (s.setErr v).canvas = s.canvas := rfl
@[simp] theorem State.setErr_rom : (s.setErr v).rom = s.rom := rfl
@[simp] theorem State.setErr_inputs : (s.setErr v).inputs = s.inputs := rfl
@[simp] theorem State.setErr_responses : (s.setErr v).responses = s.responses := rfl
end

section
variable (s : State) (v : Vector Byte 512)
@[simp] theorem State.setBitmap_tileOffset : (s.setBitmap v).tileOffset = s.tileOffset := rfl
@[simp] theorem State.setBitmap_scale : (s.setBitmap v).scale = s.scale := rfl
@[simp] theorem State.setBitmap_color : (s.setBitmap v).color = s.color := rfl
@[simp] theorem State.setBitmap_err : (s.setBitmap v).err = s.err := rfl
@[simp] theorem State.setBitmap_bitmap : (s.setBitmap v).bitmap = v := rfl
@[simp] theorem State.setBitmap_palette : (s.setBitmap v).palette = s.palette := rfl
@[simp] theorem State.setBitmap_canvas : (s.setBitmap v).canvas = s.canvas := rfl
@[simp] theorem State.setBitmap_rom : (s.setBitmap v).rom = s.rom := rfl
@[simp] theorem State.setBitmap_inputs : (s.setBitmap v).inputs = s.inputs := rfl
@[simp] theorem State.setBitmap_responses : (s.setBitmap v).responses = s.responses := rfl
end

section
variable (s : State) (v : Vector Hword 16)
@[simp] theorem State.setPalette_tileOffset : (s.setPalette v).tileOffset = s.tileOffset := rfl
@[simp] theorem State.setPalette_scale : (s.setPalette v).scale = s.scale := rfl
@[simp] theorem State.setPalette_color : (s.setPalette v).color = s.color := rfl
@[simp] theorem State.setPalette_err : (s.setPalette v).err = s.err := rfl
@[simp] theorem State.setPalette_bitmap : (s.setPalette v).bitmap = s.bitmap := rfl
@[simp] theorem State.setPalette_palette : (s.setPalette v).palette = v := rfl
@[simp] theorem State.setPalette_canvas : (s.setPalette v).canvas = s.canvas := rfl
@[simp] theorem State.setPalette_rom : (s.setPalette v).rom = s.rom := rfl
@[simp] theorem State.setPalette_inputs : (s.setPalette v).inputs = s.inputs := rfl
@[simp] theorem State.setPalette_responses : (s.setPalette v).responses = s.responses := rfl
end

section
variable (s : State) (v : List (Nat × Color))
@[simp] theorem State.setCanvas_tileOffset : (s.setCanvas v).tileOffset = s.tileOffset := rfl
@[simp] theorem State.setCanvas_scale : (s.setCanvas v).scale = s.scale := rfl
@[simp] theorem State.setCanvas_color : (s.setCanvas v).color = s.color := rfl
@[simp] theorem State.setCanvas_err : (s.setCanvas v).err = s.err := rfl
@[simp] theorem State.setCanvas_bitmap : (s.setCanvas v).bitmap = s.bitmap := rfl
@[simp] theorem State.setCanvas_palette : (s.setCanvas v).palette = s.palette := rfl
@[simp] theorem State.setCanvas_canvas : (s.setCanvas v).canvas = v := rfl
@[simp] theorem State.setCanvas_rom : (s.setCanvas v).rom = s.rom := rfl
@[simp] theorem State.setCanvas_inputs : (s.setCanvas v).inputs = s.inputs := rfl
@[simp] theorem State.setCanvas_responses : (s.setCanvas v).responses = s.responses := rfl
end

section
variable (s : State) (v : Image)
@[simp] theorem State.setRom_tileOffset : (s.setRom v).tileOffset = s.tileOffset := rfl
@[simp] theorem State.setRom_scale : (s.setRom v).scale = s.scale := rfl
@[simp] theorem State.setRom_color : (s.setRom v).color = s.color := rfl
@[simp] theorem State.setRom_err : (s.setRom v).err = s.err := rfl
@[simp] theorem State.setRom_bitmap : (s.setRom v).bitmap = s.bitmap := rfl
@[simp] theorem State.setRom_palette : (s.setRom v).palette = s.palette := rfl
@[simp] theorem State.setRom_canvas : (s.setRom v).canvas = s.canvas := rfl
@[simp] theorem State.setRom_rom : (s.setRom v).rom = v := rfl
@[simp] theorem State.setRom_inputs : (s.setRom v).inputs = s.inputs := rfl
@[simp] theorem State.setRom_responses : (s.setRom v).responses = s.responses := rfl
end

section
variable (s : State) (v : List HostInput)
@[simp] theorem State.setInputs_tileOffset : (s.setInputs v).tileOffset = s.tileOffset := rfl
@[simp] theorem State.setInputs_scale : (s.setInputs v).scale = s.scale := rfl
@[simp] theorem State.setInputs_color : (s.setInputs v).color = s.color := rfl
@[simp] theorem State.setInputs_err : (s.setInputs v).err = s.err := rfl
@[simp] theorem State.setInputs_bitmap : (s.setInputs v).bitmap = s.bitmap := rfl
@[simp] theorem State.setInputs_palette : (s.setInputs v).palette = s.palette := rfl
@[simp] theorem State.setInputs_canvas : (s.setInputs v).canvas = s.canvas := rfl
@[simp] theorem State.setInputs_rom : (s.setInputs v).rom = s.rom := rfl
@[simp] theorem State.setInputs_inputs : (s.setInputs v).inputs = v := rfl
@[simp] theorem State.setInputs_responses : (s.setInputs v).responses = s.responses := rfl
end

section
variable (s : State) (v : Word)
@[simp] theorem State.pushResponse_tileOffset : (s.pushResponse v).tileOffset = s.tileOffset := rfl
@[simp] theorem State.pushResponse_scale : (s.pushResponse v).scale = s.scale := rfl
@[simp] theorem State.pushResponse_color : (s.pushResponse v).color = s.color := rfl
@[simp] theorem State.pushResponse_err : (s.pushResponse v).err = s.err := rfl
@[simp] theorem State.pushResponse_bitmap : (s.pushResponse v).bitmap = s.bitmap := rfl
@[simp] theorem State.pushResponse_palette : (s.pushResponse v).palette = s.palette := rfl
@[simp] theorem State.pushResponse_canvas : (s.pushResponse v).canvas = s.canvas := rfl
@[simp] theorem State.pushResponse_rom : (s.pushResponse v).rom = s.rom := rfl
@[simp] theorem State.pushResponse_inputs : (s.pushResponse v).inputs = s.inputs := rfl
@[simp] theorem State.pushResponse_responses : (s.pushResponse v).responses = s.responses ++ [v] := rfl
end

section
variable (c : Code) (payload : BitVec 24) (s : State)
@[simp] theorem finish_tileOffset : (finish c payload s).tileOffset = s.tileOffset := rfl
@[simp] theorem finish_scale : (finish c payload s).scale = s.scale := rfl
@[simp] theorem finish_color : (finish c payload s).color = s.color := rfl
@[simp] theorem finish_err : (finish c payload s).err = codeErr c := rfl
@[simp] theorem finish_bitmap : (finish c payload s).bitmap = s.bitmap := rfl
@[simp] theorem finish_palette : (finish c payload s).palette = s.palette := rfl
@[simp] theorem finish_canvas : (finish c payload s).canvas = s.canvas := rfl
@[simp] theorem finish_rom : (finish c payload s).rom = s.rom := rfl
@[simp] theorem finish_inputs : (finish c payload s).inputs = s.inputs := rfl
@[simp] theorem finish_responses : (finish c payload s).responses = s.responses ++ [respondWord c payload] := rfl
end

section
variable (c : Code) (s : State)
@[simp] theorem raise_tileOffset : (raise c s).tileOffset = s.tileOffset := rfl
@[simp] theorem raise_scale : (raise c s).scale = s.scale := rfl
@[simp] theorem raise_color : (raise c s).color = s.color := rfl
@[simp] theorem raise_err : (raise c s).err = codeErr c := rfl
@[simp] theorem raise_bitmap : (raise c s).bitmap = s.bitmap := rfl
@[simp] theorem raise_palette : (raise c s).palette = s.palette := rfl
@[simp] theorem raise_canvas : (raise c s).canvas = s.canvas := rfl
@[simp] theorem raise_rom : (raise c s).rom = s.rom := rfl
@[simp] theorem raise_inputs : (raise c s).inputs = s.inputs := rfl
@[simp] theorem raise_responses : (raise c s).responses = s.responses ++ [respondWord c 0#24] := rfl
end

section
variable (s : State)
@[simp] theorem applyReset_tileOffset : (applyReset s).tileOffset = State.reset.tileOffset := rfl
@[simp] theorem applyReset_scale : (applyReset s).scale = State.reset.scale := rfl
@[simp] theorem applyReset_color : (applyReset s).color = State.reset.color := rfl
@[simp] theorem applyReset_err : (applyReset s).err = State.reset.err := rfl
@[simp] theorem applyReset_bitmap : (applyReset s).bitmap = State.reset.bitmap := rfl
@[simp] theorem applyReset_palette : (applyReset s).palette = State.reset.palette := rfl
@[simp] theorem applyReset_canvas : (applyReset s).canvas = State.reset.canvas := rfl
@[simp] theorem applyReset_rom : (applyReset s).rom = s.rom := rfl
@[simp] theorem applyReset_inputs : (applyReset s).inputs = s.inputs := rfl
@[simp] theorem applyReset_responses : (applyReset s).responses = s.responses := rfl
end

/-- Two states are equal when their fields are. -/
theorem State.ext_fields {s t : State} (h0 : s.tileOffset = t.tileOffset) (h1 : s.scale = t.scale) (h2 : s.color = t.color) (h3 : s.err = t.err) (h4 : s.bitmap = t.bitmap) (h5 : s.palette = t.palette) (h6 : s.canvas = t.canvas) (h7 : s.rom = t.rom) (h8 : s.inputs = t.inputs) (h9 : s.responses = t.responses) : s = t := by
  cases s
  cases t
  simp_all

end Sys2Proof.Machine
end

