-- ==== Sys2Proof/Laws/Stage.lean ====
section
/-! SUPPORT. How a command ends, and everything that EXTRACT can do. -/

namespace Sys2Proof.Machine

@[simp] theorem conclude_done (s : State) : conclude (.done s) = .next (finish .ok 0#24 s) := rfl
@[simp] theorem conclude_raised (c : Code) (s : State) : conclude (.raised c s) = .next (raise c s) := rfl
@[simp] theorem conclude_stopped (f : Fault) : conclude (.stopped f) = .fault f := rfl

@[simp] theorem Stage.andThen_done (s : State) (next : State → Stage) : (Stage.done s).andThen next = next s := rfl
@[simp] theorem Stage.andThen_raised (c : Code) (s : State) (next : State → Stage) :
    (Stage.raised c s).andThen next = .raised c s := rfl
@[simp] theorem Stage.andThen_stopped (f : Fault) (next : State → Stage) :
    (Stage.stopped f).andThen next = .stopped f := rfl

/-- The state in which stage 5 of a successful EXTRACT leaves the machine. -/
def extracted (scale : BitVec 8) (pointer : BitVec 32) (bitmap : Vector Byte 512) (palette : Vector Hword 16) (s : State) :
    State :=
  { s with
    tileOffset := pointer
    bitmap := bitmap
    palette := palette
    scale := scale
    canvas := unpackCanvas bitmap palette scale [] }

/-- Everything the stages of EXTRACT can do: raise in stage 1, 2 or 3 with the earlier stages' writes in place, or complete
(spec 44_extract_sequence.md R160). -/
theorem extractStages_cases (scale : BitVec 8) (s : State) :
    (s.rom.size < 0x6C ∧ extractStages scale s = .raised .outOfBounds s) ∨
    ∃ v, 0x6C ≤ s.rom.size ∧ s.rom.memRead 0x68 4 = some v ∧
      ((s.rom.size < (BitVec.ofNat 32 v).toNat + 0x220 ∧
          extractStages scale s = .raised .outOfBounds (s.setTileOffset (BitVec.ofNat 32 v))) ∨
        ∃ bitmap : Vector Byte 512, (BitVec.ofNat 32 v).toNat + 0x220 ≤ s.rom.size ∧
          (∀ i (h : i < 512), s.rom.byte? ((BitVec.ofNat 32 v).toNat + 0x20 + i) = some bitmap[i]) ∧
          ((s.rom.size < (BitVec.ofNat 32 v).toNat + 0x240 ∧
              extractStages scale s =
                .raised .outOfBounds ((s.setTileOffset (BitVec.ofNat 32 v)).setBitmap bitmap)) ∨
            ∃ palette : Vector Hword 16, (BitVec.ofNat 32 v).toNat + 0x240 ≤ s.rom.size ∧
              (∀ i (h : i < 16), paletteEntry s.rom (BitVec.ofNat 32 v) i = some palette[i]) ∧
              extractStages scale s = .done (extracted scale (BitVec.ofNat 32 v) bitmap palette s))) := by
  unfold extractStages
  obtain ⟨h1, v, hv, e1⟩ | ⟨h1, e1⟩ := resolveStage_cases s
  · refine .inr ⟨v, h1, hv, ?_⟩
    rw [e1, Stage.andThen_done]
    obtain ⟨h2, bitmap, hb, e2⟩ | ⟨h2, e2⟩ := slicebStage_cases (s.setTileOffset (BitVec.ofNat 32 v))
    · refine .inr ⟨bitmap, h2, hb, ?_⟩
      rw [e2, Stage.andThen_done]
      obtain ⟨h3, palette, hp, e3⟩ | ⟨h3, e3⟩ :=
        slicepStage_cases ((s.setTileOffset (BitVec.ofNat 32 v)).setBitmap bitmap)
      · exact .inr ⟨palette, h3, hp, by rw [e3]; rfl⟩
      · exact .inl ⟨h3, by rw [e3]; rfl⟩
    · exact .inl ⟨h2, by rw [e2]; rfl⟩
  · exact .inl ⟨h1, by rw [e1]; rfl⟩

end Sys2Proof.Machine
end

