-- ==== Sys2Proof/Tests/Slice0.lean ====
section
/-! SUPPORT. The model's own tests, with expected results from the vectors of spec/95_test_vectors.md (V1 to V30, P1 to P6),
and for every statement with hypotheses a witness that meets them. -/

set_option Elab.async false

namespace Sys2Proof.Machine.Tests

/-- The state after reset with an image attached. -/
def withImage (length : BitVec 32) (bytes : List Host.Cell) : State := attachImage length bytes State.reset

/-- A property of the next state of an outcome. -/
def holds (x : Host.Outcome State Fault Refusal) (p : State → Bool) : Bool :=
  match x with
  | .next t => p t
  | .fault _ => false
  | .refused _ => false

/-! ## The format constants: the audit of 00_scope.md R9 -/

theorem test_constants_agree :
    Config.chunks * Config.chunkBytes = Config.bitmapSize ∧
    Config.bitmapOffset + Config.bitmapSize = Config.colorPaletteOffset ∧
    Config.colorPaletteSize * Config.paletteEntryBytes = 0x20 ∧
    2 * Config.bitmapSize = Config.iconSide * Config.iconSide ∧
    Config.tilesPerRow * Config.tileSide = Config.iconSide ∧
    2 * Config.chunkBytes = Config.tileSide * Config.tileSide := by decide

/-! ## Decoding: the words of V30 and V21 -/

theorem test_decode_expand : decode 0x01007FFF#32 = .ok (.expand 0x7FFF#16) := by decide
theorem test_decode_unpack : decode 0x02000000#32 = .ok .unpack := by decide
theorem test_decode_drawpx : decode 0x03000020#32 = .ok (.drawpx 0#5 1#5) := by decide
theorem test_decode_drawpx_column : decode 0x03000001#32 = .ok (.drawpx 1#5 0#5) := by decide
theorem test_decode_resolve : decode 0x04000000#32 = .ok .resolve := by decide
theorem test_decode_sliceb : decode 0x05000000#32 = .ok .sliceb := by decide
theorem test_decode_slicep : decode 0x06000000#32 = .ok .slicep := by decide
theorem test_decode_clear : decode 0x07000020#32 = .ok (.clear 32#8) := by decide
theorem test_decode_extract : decode 0x08000020#32 = .ok (.extract 32#8) := by decide
theorem test_decode_rejects_opcodes :
    [0x00000000#32, 0x09000000#32, 0xFFFFFFFF#32].map (decodeTableWord 32 ·.toNat) = [none, none, none] := by decide
theorem test_decode_rejects_reserved_bits :
    [0x02000001#32, 0x04800000#32, 0x01010000#32, 0x03000400#32, 0x07000100#32, 0x08000100#32].map
      (decodeTableWord 32 ·.toNat) = [none, none, none, none, none, none] := by decide

/-! ## The assembler: what its check refuses, and the text of V30 -/

theorem test_wellFormed_refuses_w : (AsmLine.expand 0x10000).wellFormed = false := by decide
theorem test_wellFormed_refuses_x : (AsmLine.drawpx 32 0).wellFormed = false := by decide
theorem test_wellFormed_refuses_y : (AsmLine.drawpx 0 32).wellFormed = false := by decide
theorem test_wellFormed_refuses_clear : (AsmLine.clear 256).wellFormed = false := by decide
theorem test_wellFormed_refuses_extract : (AsmLine.extract 256).wellFormed = false := by decide
theorem test_wellFormed_refuses_render : (AsmLine.render 256).wellFormed = false := by decide
theorem test_wellFormed_accepts_ends : (AsmLine.drawpx 31 31).wellFormed && (AsmLine.expand 0xFFFF).wellFormed &&
    (AsmLine.clear 255).wellFormed = true := by decide
theorem test_assemble_text :
    (assembleText "EXPAND 0x7FFF\nDRAWPX 31, 31 ; the corner\n\nRENDER 32").toOption =
      some [0x01007FFF#32, 0x030003FF#32, 0x07000020#32, 0x02000000#32] := by decide +kernel
theorem test_assemble_text_out_of_range :
    (match assembleText "DRAWPX 32, 0" with | .error e => decide (e = AsmError.outOfRange) | .ok _ => false) = true := by
  decide +kernel

/-! ## EXPAND: V10 and V11 -/

theorem test_expand_channel_order :
    holds (exec (.expand 0x1234#16) State.reset) (fun t => decide (t.responses = [0x00A58C21#32])) = true := by decide
theorem test_expand_ignores_bit15 :
    holds (exec (.expand 0x801F#16) State.reset) (fun t => decide (t.responses = [0x00FF0000#32])) = true := by decide

/-! ## DRAWPX and CLEAR: V15 and V16 -/

/-- A canvas of scale 3, `COLOR` red. -/
def redAtScale3 : State := { State.reset with scale := 3#8, color := { r := 255#8, g := 0#8, b := 0#8 } }

theorem test_drawpx_block :
    holds (exec (.drawpx 1#5 2#5) redAtScale3) (fun t =>
      decide (t.canvas.length = 9) && decide (canvasRead 3 6 t = some 0xFF0000#24) &&
        decide (canvasRead 5 8 t = some 0xFF0000#24) && decide (canvasRead 6 8 t = some 0xFFFFFF#24)) = true := by
  decide +kernel
theorem test_drawpx_without_canvas :
    holds (exec (.drawpx 0#5 0#5) State.reset) (fun t => decide (t.canvas = []) && decide (t.responses = [0#32])) = true := by
  decide
theorem test_clear_discards_canvas :
    holds (exec (.clear 2#8) { redAtScale3 with canvas := [(7, { r := 0#8, g := 0#8, b := 0#8 })] }) (fun t =>
      decide (canvasRead 7 0 t = some 0xFFFFFF#24) && decide (canvasRead 63 63 t = some 0xFFFFFF#24) &&
        decide (canvasRead 64 0 t = none)) = true := by decide +kernel

/-! ## UNPACK: V12, V14 and V23 -/

/-- Entry 1 red, entry 2 green, entry 15 white, as in V14. -/
def paletteV14 : Vector Hword 16 := #v[0, 0x001F, 0x03E0, 0, 0, 0, 0, 0, 0, 0, 0, 0, 0, 0, 0, 0x7FFF]

theorem test_unpack_low_nibble_is_left :
    (let canvas := unpackByte (Vector.replicate 512 0x21#8) paletteV14 1#8 0 0 []
     decide (readCell 1#8 0 0 canvas = { r := 255#8, g := 0#8, b := 0#8 }) &&
       decide (readCell 1#8 1 0 canvas = { r := 0#8, g := 255#8, b := 0#8 })) = true := by decide +kernel
theorem test_unpack_coordinates :
    ((pixelX 4 0, pixelY 4 0), (pixelX 5 7, pixelY 5 7), (pixelX 10 13, pixelY 10 13), (pixelX 15 31, pixelY 15 31)) =
      ((0, 8), (14, 9), (18, 19), (30, 31)) := by decide

/-! ## RESOLVE, SLICEB, SLICEP: V17, V18, V19 and V20 -/

/-- The pointer bytes of V17. -/
def pointerV17 : List Host.Cell := [(0x68, 0x78#8), (0x69, 0x56#8), (0x6A, 0x34#8), (0x6B, 0x12#8)]

theorem test_resolve_little_endian :
    holds (exec .resolve (withImage 0x6C#32 pointerV17)) (fun t =>
      decide (t.tileOffset = 0x12345678#32) && decide (t.responses = [0x00000000#32])) = true := by decide +kernel
theorem test_resolve_short_image :
    holds (exec .resolve (withImage 0x6B#32 pointerV17)) (fun t =>
      decide (t.tileOffset = 0#32) && decide (t.err = 1#3) && decide (t.responses = [0x01000000#32])) = true := by
  decide +kernel
theorem test_sliceb_whole_region :
    holds (exec .sliceb (withImage 0x220#32 [(0x20, 0x12#8), (0x21F, 0xF0#8)])) (fun t =>
      decide (t.bitmap[0] = 0x12#8) && decide (t.bitmap[511] = 0xF0#8) && decide (t.err = 0#3)) = true := by decide +kernel
theorem test_sliceb_no_wrap :
    holds (exec .sliceb { withImage 0x21F#32 [] with tileOffset := 0xFFFFFFFF#32 }) (fun t =>
      decide (t.responses = [0x01000000#32])) = true := by decide +kernel
theorem test_slicep_unaligned :
    holds (exec .slicep { withImage 0x341#32 [(0x323, 0x1F#8), (0x325, 0xE0#8), (0x326, 0x03#8)] with
      tileOffset := 0x101#32 }) (fun t =>
      decide (t.palette[1] = 0x001F#16) && decide (t.palette[2] = 0x03E0#16)) = true := by decide +kernel
theorem test_slicep_one_byte_short :
    holds (exec .slicep { withImage 0x340#32 [] with tileOffset := 0x101#32 }) (fun t =>
      decide (t.err = 1#3)) = true := by decide +kernel

/-! ## EXTRACT: P1 and V22 -/

/-- The bytes of image A of P1. -/
def imageA : List Host.Cell := [(0x20, 0x12#8), (0x224, 0xFF#8), (0x225, 0x7F#8)]

theorem test_extract_end_to_end :
    holds (exec (.extract 1#8) (withImage 0x240#32 imageA)) (fun t =>
      decide (t.bitmap[0] = 0x12#8) && decide (t.palette[2] = 0x7FFF#16) && decide (t.scale = 1#8) &&
        decide (t.responses = [0x00000000#32])) = true := by decide +kernel
theorem test_extract_colours :
    (let canvas := unpackByte (Vector.replicate 512 0x12#8) #v[0, 0, 0x7FFF, 0, 0, 0, 0, 0, 0, 0, 0, 0, 0, 0, 0, 0] 1#8 0 0 []
     decide (canvas = [(1, { r := 0#8, g := 0#8, b := 0#8 })])) = true := by decide +kernel
theorem test_extract_fails_in_stage_two :
    holds (exec (.extract 3#8) { withImage 0x31F#32 [(0x69, 0x01#8)] with scale := 2#8 }) (fun t =>
      decide (t.tileOffset = 0x100#32) && decide (t.scale = 2#8) && decide (t.err = 1#3)) = true := by decide +kernel

/-! ## The ports and the step: V21, V26 -/

theorem test_reg_read_after_reset :
    (List.range 8).map (fun n => regRead (BitVec.ofNat 3 n) (withImage 0x240#32 [])) =
      [0#32, 0#32, 0#32, 0#32, 0x240#32, 0#32, 0#32, 0#32] := by decide
theorem test_step_illegal_word :
    holds (step (State.reset.withFetchWord 32 0x09000000)) (fun t =>
      decide (t.err = 2#3) && decide (t.responses = [0x02000000#32]) && decide (t.inputs = [])) = true := by decide
theorem test_step_runs_the_port :
    holds (step (State.reset.withFetchWord 32 0x0100001F)) (fun t =>
      decide (t.color = { r := 255#8, g := 0#8, b := 0#8 }) && decide (t.inputs = [])) = true := by decide

/-! ## Sparse memories -/

theorem test_memory_write_default_removes : Memory.write 0#8 [(1, 5#8), (3, 7#8)] 1 0#8 = [(3, 7#8)] := by decide
theorem test_memory_write_sorted : Memory.write 0#8 [(1, 5#8), (3, 7#8)] 2 9#8 = [(1, 5#8), (2, 9#8), (3, 7#8)] := by decide

/-! ## Witnesses: states and operands that meet a statement's hypotheses together, one for each clause -/

theorem witness_EncodeOfDecode : decode 0x030003FF#32 = .ok (.drawpx 31#5 31#5) := by decide

/-- A state with one word on the command port. -/
def withWord (cmd : Word) : State := presentCommand cmd State.reset

theorem witness_IllegalWord_input : (withWord 0x00000000#32).inputs = .command 0x00000000#32 :: [] := rfl
theorem witness_IllegalWord_clauses :
    (0x00FFFFFF#32 : Word).extractLsb' 24 8 = 0x00#8 ∧ 0x09#8 ≤ (0x09000000#32 : Word).extractLsb' 24 8 ∧
    ((0x01010000#32 : Word).extractLsb' 24 8 = 0x01#8 ∧ (0x01010000#32 : Word).extractLsb' 16 8 ≠ 0#8) ∧
    ((0x06800000#32 : Word).extractLsb' 24 8 = 0x06#8 ∧ (0x06800000#32 : Word).extractLsb' 0 24 ≠ 0#24) ∧
    ((0x03000400#32 : Word).extractLsb' 24 8 = 0x03#8 ∧ (0x03000400#32 : Word).extractLsb' 10 14 ≠ 0#14) ∧
    ((0x08000100#32 : Word).extractLsb' 24 8 = 0x08#8 ∧ (0x08000100#32 : Word).extractLsb' 8 16 ≠ 0#16) := by decide
theorem witness_DrawpxPaintsBlock_cells :
    (5 < 32 * redAtScale3.scale.toNat ∧ (1#5).toNat * redAtScale3.scale.toNat ≤ 5 ∧
      5 < (1#5).toNat * redAtScale3.scale.toNat + redAtScale3.scale.toNat) ∧
    (95 < 32 * redAtScale3.scale.toNat ∧ ¬ 95 < (1#5).toNat * redAtScale3.scale.toNat + redAtScale3.scale.toNat) := by decide
theorem witness_DrawpxPaintsBlock_address : ∀ dx dy, dx < 3 → dy < 3 → 0 ≠ (2 * 3 + dy) * (32 * 3) + (1 * 3 + dx) := by
  omega
theorem witness_CoordinateMapping : (15 < 16 ∧ 31 < 32) ∧ pixelX 15 31 + 1 = 31 ∧ pixelY 15 31 = 31 := by decide
theorem witness_NibblesMapOneToOne : pixelX 15 31 + true.toNat = 31 ∧ pixelY 15 31 = 31 := by decide

/-- `SCALE` = 1 and byte 0 of the bitmap 0x10: its left nibble is transparent, its right one is not. -/
def oneByte : State := { State.reset with scale := 1#8, bitmap := State.reset.bitmap.set 0 0x10#8, palette := paletteV14 }

theorem witness_UnpackClosedForm_cells :
    (0 < 32 * oneByte.scale.toNat ∧ 31 < 32 * oneByte.scale.toNat) ∧
    oneByte.bitmap[governingByte (1 / oneByte.scale.toNat) (0 / oneByte.scale.toNat)]? = some 0x10#8 ∧
    governingIndex 0x10#8 0 = 0#4 ∧ governingIndex 0x10#8 1 = 1#4 ∧ governingByte 31 31 = 511 := by decide +kernel
theorem witness_UnpackAllTransparent : ∀ i (h : i < 512), State.reset.bitmap[i] = 0x00#8 := by
  intro i h
  simp [State.reset]
theorem witness_UnpackTwiceIsOnce : Memory.wf Config.background oneByte.canvas = true ∧ ∃ t, exec .unpack oneByte = .next t :=
  ⟨rfl, _, rfl⟩
theorem witness_UnpackOrder :
    Memory.wf Config.background ([] : List (Nat × Color)) = true ∧ ∃ order : List Nibble, ∀ n : Nibble, n ∈ order :=
  ⟨rfl, Finset.univ.toList, fun n => by simp⟩
theorem witness_UnusedPaletteBits :
    ∀ i (h : i < 16), 1 ≤ i → (Vector.replicate 16 0x8000#16)[i] &&& 0x7FFF#16 = State.reset.palette[i] &&& 0x7FFF#16 := by
  intro i h _
  simp [State.reset]
theorem witness_Resolve : 0x6C ≤ (withImage 0x6C#32 []).rom.size ∧ (withImage 0x6B#32 []).rom.size < 0x6C := by decide
theorem witness_Sliceb :
    (withImage 0x220#32 []).tileOffset.toNat + 0x220 ≤ (withImage 0x220#32 []).rom.size ∧
    (withImage 0x21F#32 []).rom.size < (withImage 0x21F#32 []).tileOffset.toNat + 0x220 := by decide
theorem witness_Slicep :
    (withImage 0x240#32 []).tileOffset.toNat + 0x240 ≤ (withImage 0x240#32 []).rom.size ∧
    (withImage 0x23F#32 []).rom.size < (withImage 0x23F#32 []).tileOffset.toNat + 0x240 := by decide
theorem witness_SlicesNeverWrap :
    2 ^ 32 - 0x221 < (0xFFFFFDE0#32 : BitVec 32).toNat ∧ 2 ^ 32 - 0x241 < (0xFFFFFDC0#32 : BitVec 32).toNat := by decide

/-- The pointer bytes of an all-zero image, as far as they exist, and the value they make. -/
theorem witness_Extract_pointer :
    (withImage 0x240#32 imageA).rom.byte? 0x68 = some 0#8 ∧ (withImage 0x240#32 imageA).rom.byte? 0x69 = some 0#8 ∧
    (withImage 0x240#32 imageA).rom.byte? 0x6A = some 0#8 ∧ (withImage 0x240#32 imageA).rom.byte? 0x6B = some 0#8 ∧
    (0#8 ++ 0#8 ++ 0#8 ++ 0#8 : BitVec 32).toNat + 0x240 ≤ (withImage 0x240#32 imageA).rom.size := by decide
theorem witness_ExtractClosedForm_cells :
    (withImage 0x240#32 imageA).rom.byte? (0 + 0x20 + governingByte (1 / (1#8).toNat) (0 / (1#8).toNat)) = some 0x12#8 ∧
    governingIndex 0x12#8 1 = 1#4 ∧
    (withImage 0x240#32 imageA).rom.byte? (0 + 0x20 + governingByte (2 / (1#8).toNat) (0 / (1#8).toNat)) = some 0x00#8 ∧
    governingIndex 0x00#8 2 = 0#4 ∧ 2 < 32 * (1#8).toNat := by decide
theorem witness_ExtractFailure_stages :
    (withImage 0x6B#32 []).rom.size < 0x6C ∧
    ((withImage 0x21F#32 []).rom.byte? 0x68 = some 0#8 ∧ (withImage 0x21F#32 []).rom.byte? 0x6B = some 0#8 ∧
      (withImage 0x21F#32 []).rom.size < (0#32 : BitVec 32).toNat + 0x220) ∧
    ((withImage 0x220#32 []).rom.byte? 0x68 = some 0#8 ∧ (withImage 0x220#32 []).rom.byte? 0x6B = some 0#8 ∧
      (0#32 : BitVec 32).toNat + 0x220 ≤ (withImage 0x220#32 []).rom.size ∧
      (withImage 0x220#32 []).rom.size < (0#32 : BitVec 32).toNat + 0x240) := by decide

theorem witness_memRead : (withImage 0x240#32 imageA).rom.memRead 0x68 4 = some 0 := by decide

/-- EXTRACT succeeds on an image of 0x240 bytes whose pointer is 0. -/
theorem extract_succeeds (n : BitVec 8) (s : State) (size : s.rom.size = 0x240) (pointer : s.rom.memRead 0x68 4 = some 0) :
    ∃ t, exec (.extract n) s = .next t ∧ t.err = 0#3 := by
  have run : exec (.extract n) s = conclude (extractStages n s) := rfl
  obtain ⟨h, _⟩ | ⟨v, _, hv, c⟩ := extractStages_cases n s
  · omega
  · rw [pointer] at hv
    injection hv with hv
    subst hv
    have zero : (BitVec.ofNat 32 0).toNat = 0 := rfl
    rw [zero] at c
    obtain ⟨h, _⟩ | ⟨bitmap, _, _, ⟨h, _⟩ | ⟨palette, _, _, e⟩⟩ := c
    · omega
    · omega
    · exact ⟨_, by rw [run, e, conclude_done], rfl⟩

/-- An EXTRACT that succeeds, and another state with the same image. -/
theorem witness_Extract_success (n : BitVec 8) :
    (∃ t, exec (.extract n) (withImage 0x240#32 imageA) = .next t ∧ t.err = 0#3) ∧
      (withImage 0x240#32 imageA).rom = ({ withImage 0x240#32 imageA with scale := 9#8 } : State).rom :=
  ⟨extract_succeeds n _ rfl witness_memRead, rfl⟩
theorem witness_LoadRender : (withImage 0x240#32 imageA).rom.memRead 0x68 4 = some 0 ∧
    0 + 0x240 ≤ (withImage 0x240#32 imageA).rom.size := ⟨witness_memRead, by decide⟩

/-- An image that differs from the empty one in a byte that EXTRACT does not read. -/
def otherHeader : Image := { length := 0x240#32, cells := [(0, 1#8)] }

theorem witness_UnreadRomBytes :
    otherHeader.length = (withImage 0x240#32 []).rom.length ∧ otherHeader ≠ (withImage 0x240#32 []).rom ∧
    (withImage 0x240#32 []).rom.memRead 0x68 4 = some 0 ∧
    ∀ a, 0 + 0x20 ≤ a → otherHeader.byte? a = (withImage 0x240#32 []).rom.byte? a := by
  refine ⟨rfl, by decide, by decide, fun a ha => ?_⟩
  have : (0 : Nat) ≠ a := by omega
  simp [Image.byte?, otherHeader, Image.size, Memory.read, this, withImage, attachImage, Image.ofCells, Memory.writeAll]
theorem witness_StepRunsDecodedCommand :
    (withWord 0x07000002#32).inputs = .command 0x07000002#32 :: [] ∧ decode 0x07000002#32 = .ok (.clear 2#8) := by decide
theorem witness_StepWaits : State.reset.inputs = [] := rfl
theorem witness_StepAppliesReset : ({ redAtScale3 with inputs := [.reset] } : State).inputs = .reset :: [] := rfl
theorem witness_StepAttachesImage :
    ({ redAtScale3 with inputs := [.attach 4#32 [(3, 1#8), (3, 2#8), (4, 9#8)]] } : State).inputs =
      .attach 4#32 [(3, 1#8), (3, 2#8), (4, 9#8)] :: [] := rfl
theorem witness_OnlyNamedCommandsWrite :
    holds (exec (.expand 1#16) State.reset) (fun t => decide (t.color ≠ State.reset.color)) = true := by decide
theorem witness_EveryCommandResponds_failure :
    decode 0x04000000#32 = .ok .resolve ∧
    holds (runCommand 0x04000000#32 State.reset) (fun t => decide (t.err ≠ 0#3)) = true := by decide
theorem witness_StepKeepsInvariant : State.reset.Inv ∧ step State.reset = .next State.reset := by
  have black : expandedChannel 0#8 := ⟨0#5, by decide⟩
  refine ⟨?_, rfl⟩
  constructor
  · rfl
  · rfl
  · rfl
  · rfl
  · exact Nat.zero_le 2
  · exact ⟨black, black, black⟩
  · simp [State.reset]
theorem witness_CanvasReadPort : (95 < 32 * redAtScale3.scale.toNat ∧ 95 < 32 * redAtScale3.scale.toNat) ∧
    ¬ (96 < 32 * redAtScale3.scale.toNat ∧ 0 < 32 * redAtScale3.scale.toNat) := by decide

end Sys2Proof.Machine.Tests
end

section
/-! The host's actions still to come are carried by a command untouched and never looked at: a command run under another list
of them does the same and leaves that list (spec 20_memory.md R41; notes/assumptions/1.md). With it, a step is the command
at the port, and a program its words taken step by step (00_scope.md R13, 70_reset_and_hazards.md R210). -/

namespace Sys2Proof.Machine

/-- Change the state a stage ends in, keeping how it ended. -/
def Stage.map (f : State → State) : Stage → Stage
  | .done s => .done (f s)
  | .raised c s => .raised c (f s)
  | .stopped r => .stopped r

/-- Change the next state of an outcome, keeping a fault or a refusal. -/
def mapNext (f : State → State) : Host.Outcome State Fault Refusal → Host.Outcome State Fault Refusal
  | .next s => .next (f s)
  | .fault r => .fault r
  | .refused r => .refused r

/-- A chain of stages commutes with a change of state that its second stage commutes with. -/
theorem Stage.map_andThen {f : State → State} {next : State → Stage} (h : ∀ s, next (f s) = (next s).map f) (x : Stage) :
    (x.map f).andThen next = (x.andThen next).map f := by
  cases x with
  | done s => exact h s
  | raised c s => rfl
  | stopped r => rfl

section
variable (l : List HostInput)

theorem conclude_setInputs (x : Stage) :
    conclude (x.map (·.setInputs l)) = mapNext (·.setInputs l) (conclude x) := by
  cases x <;> rfl

theorem fetchRegion_setInputs {α : Type} (s : State) (start size : Nat) (copy : Option α) (write : α → State) :
    fetchRegion (s.setInputs l) start size copy (fun v => (write v).setInputs l) =
      (fetchRegion s start size copy write).map (·.setInputs l) := by
  cases h : s.rom.inside start size with
  | true => cases copy <;> simp [fetchRegion, h, Stage.map]
  | false => simp [fetchRegion, h, Stage.map]

theorem resolveStage_setInputs (s : State) :
    resolveStage (s.setInputs l) = (resolveStage s).map (·.setInputs l) :=
  fetchRegion_setInputs l s _ _ _ fun v => s.setTileOffset (BitVec.ofNat 32 v)

theorem slicebStage_setInputs (s : State) :
    slicebStage (s.setInputs l) = (slicebStage s).map (·.setInputs l) :=
  fetchRegion_setInputs l s _ _ _ s.setBitmap

theorem slicepStage_setInputs (s : State) :
    slicepStage (s.setInputs l) = (slicepStage s).map (·.setInputs l) :=
  fetchRegion_setInputs l s _ _ _ s.setPalette

theorem extractStages_setInputs (scale : BitVec 8) (s : State) :
    extractStages scale (s.setInputs l) = (extractStages scale s).map (·.setInputs l) := by
  have clear : ∀ t, clearStage scale (t.setInputs l) = (clearStage scale t).map (·.setInputs l) := fun _ => rfl
  have unpack : ∀ t, unpackStage (t.setInputs l) = (unpackStage t).map (·.setInputs l) := fun _ => rfl
  rw [extractStages, resolveStage_setInputs, Stage.map_andThen (slicebStage_setInputs l),
    Stage.map_andThen (slicepStage_setInputs l), Stage.map_andThen clear, Stage.map_andThen unpack, extractStages]

/-- No command reads or writes the host's actions still to come. -/
theorem exec_setInputs (i : Instr) (s : State) :
    exec i (s.setInputs l) = mapNext (·.setInputs l) (exec i s) := by
  cases i with
  | expand w => rfl
  | unpack => rfl
  | drawpx x y => rfl
  | clear scale => rfl
  | resolve => exact (congrArg conclude (resolveStage_setInputs l s)).trans (conclude_setInputs l _)
  | sliceb => exact (congrArg conclude (slicebStage_setInputs l s)).trans (conclude_setInputs l _)
  | slicep => exact (congrArg conclude (slicepStage_setInputs l s)).trans (conclude_setInputs l _)
  | extract scale => exact (congrArg conclude (extractStages_setInputs l scale s)).trans (conclude_setInputs l _)

theorem runCommand_setInputs (cmd : Word) (s : State) :
    runCommand cmd (s.setInputs l) = mapNext (·.setInputs l) (runCommand cmd s) := by
  unfold runCommand
  cases decode cmd with
  | ok i => exact exec_setInputs l i s
  | error _ => rfl

end

/-- A command leaves the host's actions still to come as they are. -/
theorem runCommand_inputs {cmd : Word} {s t : State} (h : runCommand cmd s = .next t) : t.inputs = s.inputs := by
  have same : runCommand cmd s = mapNext (·.setInputs s.inputs) (runCommand cmd s) := runCommand_setInputs s.inputs cmd s
  rw [h] at same
  injection same with same
  simpa using congrArg State.inputs same

theorem runCommand_of_decode {cmd : Word} {i : Instr} (h : decode cmd = .ok i) (s : State) :
    runCommand cmd s = exec i s := by
  simp only [runCommand, h]

/-- A step with a word at the port runs that word in the state in which it is no longer to come. -/
theorem step_of_command {s : State} {cmd : Word} {rest : List HostInput} (h : s.inputs = .command cmd :: rest) :
    step s = runCommand cmd (s.setInputs rest) := by
  simp only [step, nextInput, h, runInput]

/-- The first of the queued words is taken by the first step, and leaves the others queued. -/
theorem step_queued (cmd : Word) (l : List HostInput) (s : State) :
    step (s.setInputs (.command cmd :: l)) = mapNext (·.setInputs l) (runCommand cmd s) :=
  (step_of_command rfl).trans (runCommand_setInputs l cmd s)

/-- Words queued before the host's other actions run, in as many steps as they are, as the program they form. -/
theorem run_queued (cmds : List Word) (s : State) :
    Sys2Proof.core.run cmds.length (s.setInputs (cmds.map .command ++ s.inputs)) = runProgram cmds s := by
  induction cmds generalizing s with
  | nil => rfl
  | cons cmd rest ih =>
    have first : Sys2Proof.core.step (s.setInputs ((cmd :: rest).map .command ++ s.inputs)) =
        mapNext (·.setInputs (rest.map .command ++ s.inputs)) (runCommand cmd s) := step_queued cmd _ s
    simp only [List.length_cons, Host.Core.run, first, runProgram]
    cases h : runCommand cmd s with
    | next t => exact runCommand_inputs h ▸ ih t
    | fault f => rfl
    | refused r => rfl

/-- Settles O31: the step runs the word, and the word decodes to `i`. -/
theorem stepRunsDecodedCommand : Obligations.StepRunsDecodedCommand := by
  intro s cmd rest i hport hdecode
  exact (step_of_command hport).trans (runCommand_of_decode hdecode _)

/-- Settles O42, by induction on the program: no command touches the words still queued behind it. -/
theorem queuedCommandsRunAsProgram : Obligations.QueuedCommandsRunAsProgram :=
  run_queued

end Sys2Proof.Machine
end

section
/-! What the state of the block is: its values after reset, and its registers at the read port (spec 10_state.md R26, R31,
R33). -/

namespace Sys2Proof.Machine

/-- The number of a packed colour: each channel is appended below the ones before it (spec 10_state.md R26). -/
theorem pack_toNat (c : Color) : (pack c).toNat = (c.r.toNat <<< 16) ||| (c.g.toNat <<< 8) ||| c.b.toNat := by
  have outer : (pack c).toNat = (c.r ++ c.g).toNat <<< 8 ||| c.b.toNat := BitVec.toNat_append _ _
  have inner : (c.r ++ c.g).toNat = c.r.toNat <<< 8 ||| c.g.toNat := BitVec.toNat_append _ _
  rw [outer, inner, Nat.shiftLeft_or_distrib, ← Nat.shiftLeft_add]

/-- Settles O10, by `pack_toNat`. -/
theorem packLayout : Obligations.PackLayout :=
  pack_toNat

/-- With `SCALE` = 0 the canvas has no cells, so the read port refuses every read (spec 20_memory.md R46). -/
theorem canvasRead_of_scale_zero {s : State} (h : s.scale = 0#8) (col row : Nat) : canvasRead col row s = none := by
  simp [canvasRead, canvasSide, h]

/-- Settles O35: the registers by their definition, the buffers element by element, the canvas by its scale 0. -/
theorem resetStateValues : Obligations.ResetStateValues :=
  ⟨rfl, rfl, rfl, rfl, fun _ h => Vector.getElem_replicate h, fun _ h => Vector.getElem_replicate h,
    canvasRead_of_scale_zero rfl, rfl⟩

/-- Settles O43: the narrow registers keep their value as they are widened to 32 bits. -/
theorem regReadPortTable : Obligations.RegReadPortTable := by
  intro s
  have status : (regRead 0#3 s).toNat = s.err.toNat := BitVec.toNat_setWidth_of_le (by decide)
  have scale : (regRead 2#3 s).toNat = s.scale.toNat := BitVec.toNat_setWidth_of_le (by decide)
  have color : (regRead 3#3 s).toNat = (pack s.color).toNat := BitVec.toNat_setWidth_of_le (by decide)
  exact ⟨status, rfl, scale, color, rfl, rfl, rfl, rfl⟩

end Sys2Proof.Machine
end

section
/-! `STATUS.ERR` is written at the end of every command and read by none (spec 10_state.md R36, 60_exceptions.md R187). -/

namespace Sys2Proof.Machine

/-- A fetch commutes with every change of state that keeps the image. -/
theorem fetchRegion_map {α : Type} (s : State) (f : State → State) (hrom : (f s).rom = s.rom) (start size : Nat)
    (copy : Option α) (write : α → State) :
    fetchRegion (f s) start size copy (fun v => f (write v)) = (fetchRegion s start size copy write).map f := by
  unfold fetchRegion
  rw [hrom]
  split
  · cases copy <;> rfl
  · rfl

section
variable (e : BitVec 3)

/-- The end of a command writes `STATUS.ERR` over whatever its body left there. -/
theorem conclude_setErr (x : Stage) : conclude (x.map (·.setErr e)) = conclude x := by
  cases x <;> rfl

theorem resolveStage_setErr (s : State) : resolveStage (s.setErr e) = (resolveStage s).map (·.setErr e) :=
  fetchRegion_map s (·.setErr e) rfl _ _ _ fun v => s.setTileOffset (BitVec.ofNat 32 v)

theorem slicebStage_setErr (s : State) : slicebStage (s.setErr e) = (slicebStage s).map (·.setErr e) :=
  fetchRegion_map s (·.setErr e) rfl _ _ _ s.setBitmap

theorem slicepStage_setErr (s : State) : slicepStage (s.setErr e) = (slicepStage s).map (·.setErr e) :=
  fetchRegion_map s (·.setErr e) rfl _ _ _ s.setPalette

theorem extractStages_setErr (scale : BitVec 8) (s : State) :
    extractStages scale (s.setErr e) = (extractStages scale s).map (·.setErr e) := by
  have clear : ∀ t, clearStage scale (t.setErr e) = (clearStage scale t).map (·.setErr e) := fun _ => rfl
  have unpack : ∀ t, unpackStage (t.setErr e) = (unpackStage t).map (·.setErr e) := fun _ => rfl
  rw [extractStages, resolveStage_setErr, Stage.map_andThen (slicebStage_setErr e),
    Stage.map_andThen (slicepStage_setErr e), Stage.map_andThen clear, Stage.map_andThen unpack, extractStages]

/-- A command runs alike under every value of `STATUS.ERR`. -/
theorem exec_setErr (i : Instr) (s : State) : exec i (s.setErr e) = exec i s := by
  cases i with
  | expand w => rfl
  | unpack => rfl
  | drawpx x y => rfl
  | clear scale => rfl
  | resolve => exact (congrArg conclude (resolveStage_setErr e s)).trans (conclude_setErr e _)
  | sliceb => exact (congrArg conclude (slicebStage_setErr e s)).trans (conclude_setErr e _)
  | slicep => exact (congrArg conclude (slicepStage_setErr e s)).trans (conclude_setErr e _)
  | extract scale => exact (congrArg conclude (extractStages_setErr e scale s)).trans (conclude_setErr e _)

end

/-- A word that is no command raises `IllegalCommand` (spec 30_encoding.md R70). -/
theorem runCommand_of_reject {cmd : Word} {r : Reject} (h : decode cmd = .error r) (s : State) :
    runCommand cmd s = .next (raise .illegalCommand s) := by
  simp only [runCommand, h]

/-- Settles O38: a legal command by `exec_setErr`; a word that is no command writes `STATUS.ERR` and reads nothing. -/
theorem noCommandReadsErr : Obligations.NoCommandReadsErr := by
  intro cmd s e
  cases h : decode cmd with
  | ok i => rw [runCommand_of_decode h, runCommand_of_decode h]; exact exec_setErr e i s
  | error r => rw [runCommand_of_reject h, runCommand_of_reject h]; rfl

end Sys2Proof.Machine
end

section
/-! Everything the body of a command can write (spec 10_state.md R20's table of writers), from which follow who writes what and
the invariant. -/

namespace Sys2Proof.Machine

/-- `BodyEnds s i c u`: the body of command `i`, begun in `s`, can end with outcome `c` in the state `u`, to which only
`STATUS.ERR` and the response are still to be written. When a fetch succeeds and what it reads is said by `resolveStage_cases`
and its like. -/
inductive BodyEnds (s : State) : Instr → Code → State → Prop
  | expand (w : BitVec 16) : BodyEnds s (.expand w) .ok (s.setColor (decodeColor w))
  | unpack : BodyEnds s .unpack .ok (s.setCanvas (unpackCanvas s.bitmap s.palette s.scale s.canvas))
  | drawpx (x y : BitVec 5) :
      BodyEnds s (.drawpx x y) .ok (s.setCanvas (drawBlock s.scale x.toNat y.toNat s.color s.canvas))
  | resolve (T : BitVec 32) : BodyEnds s .resolve .ok (s.setTileOffset T)
  | resolveRaises : BodyEnds s .resolve .outOfBounds s
  | sliceb (b : Vector Byte 512) : BodyEnds s .sliceb .ok (s.setBitmap b)
  | slicebRaises : BodyEnds s .sliceb .outOfBounds s
  | slicep (p : Vector Hword 16) : BodyEnds s .slicep .ok (s.setPalette p)
  | slicepRaises : BodyEnds s .slicep .outOfBounds s
  | clear (n : BitVec 8) : BodyEnds s (.clear n) .ok ((s.setScale n).setCanvas [])
  | extract (n : BitVec 8) (T : BitVec 32) (b : Vector Byte 512) (p : Vector Hword 16) :
      BodyEnds s (.extract n) .ok
        (((((s.setTileOffset T).setBitmap b).setPalette p).setScale n).setCanvas (unpackCanvas b p n []))
  | extractRaisesAtResolve (n : BitVec 8) : BodyEnds s (.extract n) .outOfBounds s
  | extractRaisesAtSliceb (n : BitVec 8) (T : BitVec 32) : BodyEnds s (.extract n) .outOfBounds (s.setTileOffset T)
  | extractRaisesAtSlicep (n : BitVec 8) (T : BitVec 32) (b : Vector Byte 512) :
      BodyEnds s (.extract n) .outOfBounds ((s.setTileOffset T).setBitmap b)

/-- Every command ends in a next state: what its body wrote, then the code and the response. -/
theorem exec_ends (i : Instr) (s : State) :
    ∃ c payload u, exec i s = .next (finish c payload u) ∧ BodyEnds s i c u := by
  cases i with
  | expand w => exact ⟨_, _, _, rfl, .expand w⟩
  | unpack => exact ⟨_, _, _, rfl, .unpack⟩
  | drawpx x y => exact ⟨_, _, _, rfl, .drawpx x y⟩
  | clear n => exact ⟨_, _, _, rfl, .clear n⟩
  | resolve =>
    obtain ⟨-, v, -, e⟩ | ⟨-, e⟩ := resolveStage_cases s
    · exact ⟨_, _, _, congrArg conclude e, .resolve _⟩
    · exact ⟨_, _, _, congrArg conclude e, .resolveRaises⟩
  | sliceb =>
    obtain ⟨-, b, -, e⟩ | ⟨-, e⟩ := slicebStage_cases s
    · exact ⟨_, _, _, congrArg conclude e, .sliceb b⟩
    · exact ⟨_, _, _, congrArg conclude e, .slicebRaises⟩
  | slicep =>
    obtain ⟨-, p, -, e⟩ | ⟨-, e⟩ := slicepStage_cases s
    · exact ⟨_, _, _, congrArg conclude e, .slicep p⟩
    · exact ⟨_, _, _, congrArg conclude e, .slicepRaises⟩
  | extract n =>
    obtain ⟨-, e⟩ | ⟨v, -, -, ⟨-, e⟩ | ⟨b, -, -, ⟨-, e⟩ | ⟨p, -, -, e⟩⟩⟩ := extractStages_cases n s
    · exact ⟨_, _, _, congrArg conclude e, .extractRaisesAtResolve n⟩
    · exact ⟨_, _, _, congrArg conclude e, .extractRaisesAtSliceb n _⟩
    · exact ⟨_, _, _, congrArg conclude e, .extractRaisesAtSlicep n _ b⟩
    · exact ⟨_, _, _, congrArg conclude e, .extract n _ b p⟩

/-- `exec_ends` for a next state that is known. -/
theorem ends_of_exec {i : Instr} {s t : State} (h : exec i s = .next t) :
    ∃ c payload u, t = finish c payload u ∧ BodyEnds s i c u := by
  obtain ⟨c, payload, u, e, hu⟩ := exec_ends i s
  exact ⟨c, payload, u, by simpa [h] using e, hu⟩

/-- Settles O39, by the ways the body of a command can end: each is a chain of field updates, which `simp` reads field by field
with the lemmas of Laws/State. -/
theorem onlyNamedCommandsWrite : Obligations.OnlyNamedCommandsWrite := by
  intro i s t h
  obtain ⟨c, payload, u, rfl, hu⟩ := ends_of_exec h
  cases hu <;> simp

end Sys2Proof.Machine
end

section
/-! The invariant of the machine: it holds after reset, every operation of the state keeps it, and so does every step. -/

namespace Sys2Proof.Machine

/-- Every colour the expander makes is one of its table (spec 40_palette_expander.md R91, R92). -/
theorem expandedColor_decodeColor (w : Hword) : expandedColor (decodeColor w) :=
  ⟨⟨_, rfl⟩, ⟨_, rfl⟩, ⟨_, rfl⟩⟩

/-- The code of every outcome is a legal `STATUS.ERR` (spec 10_state.md R27). -/
theorem codeErr_le_two (c : Code) : (codeErr c).toNat ≤ 2 := by
  cases c <;> decide

/-- The part of the invariant that speaks of the canvas: canonical, inside W * W, only colours of the expander. -/
structure CanvasInv (scale : BitVec 8) (canvas : List (Nat × Color)) : Prop where
  canonical : Memory.wf Config.background canvas = true
  bounded : Memory.below (canvasSide scale * canvasSide scale) canvas = true
  expanded : ∀ cell ∈ canvas, expandedColor cell.2

theorem State.Inv.canvasInv {s : State} (h : s.Inv) : CanvasInv s.scale s.canvas :=
  ⟨h.canvasCanonical, h.canvasBounded, h.cellsExpanded⟩

/-- A new canvas, all white, has no listed cell (spec 42_pixel_rasterizer.md R123). -/
theorem canvasInv_nil (scale : BitVec 8) : CanvasInv scale [] :=
  ⟨rfl, rfl, fun _ h => absurd h List.not_mem_nil⟩

/-- A block of a logical pixel in a colour of the expander keeps the canvas's part of the invariant. -/
theorem CanvasInv.drawBlock {scale : BitVec 8} {canvas : List (Nat × Color)} (h : CanvasInv scale canvas) {x y : Nat}
    (hx : x < 32) (hy : y < 32) {color : Color} (hc : expandedColor color) :
    CanvasInv scale (drawBlock scale x y color canvas) where
  canonical := wf_drawBlock h.canonical
  bounded := below_drawBlock hx hy h.bounded
  expanded cell hcell := (mem_drawBlock hcell).elim (h.expanded cell) fun e => e ▸ hc

/-- UNPACK keeps the canvas's part of the invariant, whatever the bitmap and the palette hold. -/
theorem CanvasInv.unpackCanvas {scale : BitVec 8} {canvas : List (Nat × Color)} (h : CanvasInv scale canvas)
    (bitmap : Vector Byte 512) (palette : Vector Hword 16) :
    CanvasInv scale (unpackCanvas bitmap palette scale canvas) :=
  unpackCanvas_keeps (CanvasInv scale) h fun _ _ _ _ hx hy _ hacc =>
    hacc.drawBlock hx hy (expandedColor_decodeColor _)

section
variable {s : State} (h : s.Inv)
include h

theorem State.Inv.setTileOffset (v : BitVec 32) : (s.setTileOffset v).Inv := { h with }

theorem State.Inv.setBitmap (v : Vector Byte 512) : (s.setBitmap v).Inv := { h with }

theorem State.Inv.setPalette (v : Vector Hword 16) : (s.setPalette v).Inv := { h with }

theorem State.Inv.setInputs (v : List HostInput) : (s.setInputs v).Inv := { h with }

theorem State.Inv.setColor {v : Color} (hv : expandedColor v) : (s.setColor v).Inv := { h with colorExpanded := hv }

theorem State.Inv.setCanvas {v : List (Nat × Color)} (hv : CanvasInv s.scale v) : (s.setCanvas v).Inv :=
  { h with canvasCanonical := hv.canonical, canvasBounded := hv.bounded, cellsExpanded := hv.expanded }

/-- A new scale comes with a new canvas (spec 10_state.md R24, R30). -/
theorem State.Inv.setScale_setCanvas {n : BitVec 8} {v : List (Nat × Color)} (hv : CanvasInv n v) :
    ((s.setScale n).setCanvas v).Inv :=
  { h with canvasCanonical := hv.canonical, canvasBounded := hv.bounded, cellsExpanded := hv.expanded }

theorem State.Inv.finish (c : Code) (payload : BitVec 24) : (finish c payload s).Inv :=
  { h with errLegal := codeErr_le_two c }

/-- However the body of a command ends, the invariant holds there. -/
theorem State.Inv.of_bodyEnds {i : Instr} {c : Code} {u : State} (hu : BodyEnds s i c u) : u.Inv := by
  cases hu with
  | expand w => exact h.setColor (expandedColor_decodeColor w)
  | unpack => exact h.setCanvas (h.canvasInv.unpackCanvas _ _)
  | drawpx x y => exact h.setCanvas (h.canvasInv.drawBlock x.isLt y.isLt h.colorExpanded)
  | resolve T => exact h.setTileOffset T
  | sliceb b => exact h.setBitmap b
  | slicep p => exact h.setPalette p
  | clear n => exact h.setScale_setCanvas (canvasInv_nil n)
  | extract n T b p =>
    exact (((h.setTileOffset T).setBitmap b).setPalette p).setScale_setCanvas ((canvasInv_nil n).unpackCanvas b p)
  | resolveRaises => exact h
  | slicebRaises => exact h
  | slicepRaises => exact h
  | extractRaisesAtResolve n => exact h
  | extractRaisesAtSliceb n T => exact h.setTileOffset T
  | extractRaisesAtSlicep n T b => exact (h.setTileOffset T).setBitmap b

/-- Every command word keeps the invariant, be it a command or not. -/
theorem State.Inv.runCommand {cmd : Word} {t : State} (hrun : runCommand cmd s = .next t) : t.Inv := by
  cases hd : decode cmd with
  | ok i =>
    rw [runCommand_of_decode hd] at hrun
    obtain ⟨c, payload, u, rfl, hu⟩ := ends_of_exec hrun
    exact (h.of_bodyEnds hu).finish c payload
  | error r =>
    rw [runCommand_of_reject hd] at hrun
    injection hrun with hrun
    exact hrun ▸ h.finish .illegalCommand 0#24

/-- An image is attached in its canonical form, with no byte at or above its length (spec 20_memory.md R40). -/
theorem State.Inv.attachImage (length : BitVec 32) (bytes : List Host.Cell) : (attachImage length bytes s).Inv :=
  { h with
    romCanonical := Memory.wf_writeAll 0#8 _ rfl
    romBounded := Memory.below_writeAll 0#8 _ (fun _ hc => of_decide_eq_true (List.mem_filter.mp hc).2) rfl }

end

/-- The invariant holds after reset: black is the table's entry for channel 0. -/
theorem reset_inv : State.reset.Inv where
  romCanonical := rfl
  romBounded := rfl
  canvasCanonical := rfl
  canvasBounded := rfl
  errLegal := Nat.zero_le 2
  colorExpanded := expandedColor_decodeColor 0#16
  cellsExpanded := (canvasInv_nil 0#8).expanded

/-- Settles O41, by `reset_inv`. -/
theorem resetMeetsInvariant : Obligations.ResetMeetsInvariant :=
  reset_inv

/-- Reset touches everything the invariant speaks of but the image (spec 70_reset_and_hazards.md R200). -/
theorem State.Inv.applyReset {s : State} (h : s.Inv) : (applyReset s).Inv :=
  { reset_inv with romCanonical := h.romCanonical, romBounded := h.romBounded }

/-- With nothing asked of it the block waits in its state. -/
theorem step_of_no_input {s : State} (h : s.inputs = []) : step s = .next s := by
  simp only [step, nextInput, h]

/-- A step takes the host's next action in the state in which it is no longer to come. -/
theorem step_of_input {s : State} {a : HostInput} {rest : List HostInput} (h : s.inputs = a :: rest) :
    step s = runInput a (s.setInputs rest) := by
  simp only [step, nextInput, h]

/-- Every action of the host keeps the invariant. -/
theorem State.Inv.runInput {s t : State} (h : s.Inv) {a : HostInput} (hrun : runInput a s = .next t) : t.Inv := by
  cases a with
  | command cmd => exact h.runCommand hrun
  | attach length bytes => injection hrun with hrun; exact hrun ▸ h.attachImage length bytes
  | reset => injection hrun with hrun; exact hrun ▸ h.applyReset

/-- Settles O40: the block waits, or it takes the host's next action. -/
theorem stepKeepsInvariant : Obligations.StepKeepsInvariant := by
  intro s t h hstep
  cases hin : s.inputs with
  | nil =>
    rw [step_of_no_input hin] at hstep
    injection hstep with hstep
    exact hstep ▸ h
  | cons a rest =>
    rw [step_of_input hin] at hstep
    exact (h.setInputs rest).runInput hstep

end Sys2Proof.Machine
end

section
/-! The bounds rule of the two slices against the longest image there can be (spec 20_memory.md R49). -/

namespace Sys2Proof.Machine

/-- `ROM_LEN` is a 32-bit number (spec 10_state.md R23). -/
theorem Image.size_lt (img : Image) : img.size < 2 ^ 32 := img.length.isLt

/-- SLICEB on an image that ends before its region raises `OutOfBounds` and copies nothing (spec 43_rom_fetch.md R142). -/
theorem exec_sliceb_of_short {s : State} (h : s.rom.size < s.tileOffset.toNat + 0x220) :
    exec .sliceb s = .next (raise .outOfBounds s) := by
  obtain ⟨hin, -⟩ | ⟨-, e⟩ := slicebStage_cases s
  · omega
  · exact congrArg conclude e

/-- SLICEP on an image that ends before its region raises `OutOfBounds` and copies nothing (spec 43_rom_fetch.md R143). -/
theorem exec_slicep_of_short {s : State} (h : s.rom.size < s.tileOffset.toNat + 0x240) :
    exec .slicep s = .next (raise .outOfBounds s) := by
  obtain ⟨hin, -⟩ | ⟨-, e⟩ := slicepStage_cases s
  · omega
  · exact congrArg conclude e

/-- Settles O24: the region's end, an exact sum, lies above every `ROM_LEN`. -/
theorem slicesNeverWrap : Obligations.SlicesNeverWrap := by
  intro s
  have size := s.rom.size_lt
  exact ⟨fun h => exec_sliceb_of_short (by omega), fun h => exec_slicep_of_short (by omega)⟩

end Sys2Proof.Machine
end

section
/-! EXTRACT reads the pointer and the two regions it names and nothing else of the image (spec 20_memory.md R48,
93_implementation_defined.md U17): each fetch commutes with an exchange of the image for one of the same length with the same
bytes where the fetch reads. -/

namespace Sys2Proof.Machine

/-- A copy depends on the elements it asks for only. -/
theorem gather_congr {α : Type} {n : Nat} {f g : Nat → Option α} (h : ∀ k, k < n → f k = g k) : gather n f = gather n g := by
  refine Option.ext fun v => ?_
  rw [gather_eq_some, gather_eq_some]
  exact forall₂_congr fun k hk => by rw [h k hk]

/-- A read depends on the bytes at its addresses only. -/
theorem Image.memRead_congr {rom rom' : Image} {addr n : Nat}
    (h : ∀ a, addr ≤ a → a < addr + n → rom.byte? a = rom'.byte? a) : rom.memRead addr n = rom'.memRead addr n := by
  induction n generalizing addr with
  | zero => rfl
  | succ n ih =>
    rw [Image.memRead, Image.memRead, h addr (by omega) (by omega), ih fun a h1 h2 => h a (by omega) (by omega)]

/-- A pointer of four bytes is below 2^32, so `TILE_OFFSET` holds all of it. -/
theorem Image.memRead_four_lt {img : Image} {addr v : Nat} (h : img.memRead addr 4 = some v) : v < 2 ^ 32 := by
  obtain ⟨b0, b1, b2, b3, -, -, -, -, rfl⟩ := Image.memRead_four.mp h
  omega

@[simp] theorem Stage.map_done (f : State → State) (s : State) : (Stage.done s).map f = .done (f s) := rfl

theorem conclude_setRom (rom : Image) (x : Stage) :
    conclude (x.map (·.setRom rom)) = mapNext (·.setRom rom) (conclude x) := by
  cases x <;> rfl

section
variable {s : State} {rom : Image} (hlen : rom.length = s.rom.length)
include hlen

/-- The bounds check sees the length of the image only, so a fetch whose copy is the same does the same. -/
theorem fetchRegion_setRom {α : Type} {start size : Nat} {copy copy' : Option α} (write : α → State) (h : copy' = copy) :
    fetchRegion (s.setRom rom) start size copy' (fun v => (write v).setRom rom) =
      (fetchRegion s start size copy write).map (·.setRom rom) := by
  have inside : (s.setRom rom).rom.inside start size = s.rom.inside start size := by
    rw [Image.inside, Image.inside, Image.size, Image.size, State.setRom_rom, hlen]
  unfold fetchRegion
  rw [inside, h]
  split
  · cases copy <;> rfl
  · rfl

theorem resolveStage_setRom (h : ∀ a, 0x68 ≤ a → a < 0x6C → rom.byte? a = s.rom.byte? a) :
    resolveStage (s.setRom rom) = (resolveStage s).map (·.setRom rom) :=
  fetchRegion_setRom hlen (fun v => s.setTileOffset (BitVec.ofNat 32 v)) (Image.memRead_congr h)

variable (h : ∀ a, s.tileOffset.toNat + 0x20 ≤ a → a < s.tileOffset.toNat + 0x240 → rom.byte? a = s.rom.byte? a)
include h

theorem slicebStage_setRom : slicebStage (s.setRom rom) = (slicebStage s).map (·.setRom rom) :=
  fetchRegion_setRom hlen s.setBitmap <| gather_congr fun k (hk : k < 512) =>
    h (s.tileOffset.toNat + 0x20 + k) (by omega) (by omega)

theorem slicepStage_setRom : slicepStage (s.setRom rom) = (slicepStage s).map (·.setRom rom) := by
  refine fetchRegion_setRom hlen s.setPalette (gather_congr fun k (hk : k < 16) => Option.ext fun w => ?_)
  have start : paletteStart s.tileOffset = s.tileOffset.toNat + 0x220 := rfl
  rw [paletteEntry_eq_some, paletteEntry_eq_some, State.setRom_rom, State.setRom_tileOffset, start,
    h (s.tileOffset.toNat + 0x220 + 2 * k) (by omega) (by omega),
    h (s.tileOffset.toNat + 0x220 + 2 * k + 1) (by omega) (by omega)]

end

section
variable {s : State} {rom : Image} (hlen : rom.length = s.rom.length)
  (pointer : ∀ a, 0x68 ≤ a → a < 0x6C → rom.byte? a = s.rom.byte? a)
  (regions : ∀ T a, s.rom.memRead 0x68 4 = some T → T + 0x20 ≤ a → a < T + 0x240 → rom.byte? a = s.rom.byte? a)
include hlen pointer regions

/-- The fetches of EXTRACT, one after the other: the regions the slices read are those of the pointer that RESOLVE took. -/
theorem fetchStages_setRom :
    ((resolveStage (s.setRom rom)).andThen slicebStage).andThen slicepStage =
      (((resolveStage s).andThen slicebStage).andThen slicepStage).map (·.setRom rom) := by
  rw [resolveStage_setRom hlen pointer]
  obtain ⟨-, v, hv, resolved⟩ | ⟨-, raised⟩ := resolveStage_cases s
  · have value : (BitVec.ofNat 32 v).toNat = v := Nat.mod_eq_of_lt (Image.memRead_four_lt hv)
    have agree : ∀ a, (BitVec.ofNat 32 v).toNat + 0x20 ≤ a → a < (BitVec.ofNat 32 v).toNat + 0x240 →
        rom.byte? a = s.rom.byte? a := fun a => value.symm ▸ regions v a hv
    have sliceb := slicebStage_setRom (s := s.setTileOffset (BitVec.ofNat 32 v)) hlen agree
    rw [resolved, Stage.map_done, Stage.andThen_done, Stage.andThen_done, sliceb]
    obtain ⟨-, b, -, sliced⟩ | ⟨-, raised⟩ := slicebStage_cases (s.setTileOffset (BitVec.ofNat 32 v))
    · rw [sliced]
      exact slicepStage_setRom (s := (s.setTileOffset (BitVec.ofNat 32 v)).setBitmap b) hlen agree
    · rw [raised]
      rfl
  · rw [raised]
    rfl

/-- EXTRACT's last two stages do not look at the image. -/
theorem extractStages_setRom (n : BitVec 8) :
    extractStages n (s.setRom rom) = (extractStages n s).map (·.setRom rom) := by
  have clear : ∀ t, clearStage n (t.setRom rom) = (clearStage n t).map (·.setRom rom) := fun _ => rfl
  have unpack : ∀ t, unpackStage (t.setRom rom) = (unpackStage t).map (·.setRom rom) := fun _ => rfl
  rw [extractStages, fetchStages_setRom hlen pointer regions, Stage.map_andThen clear, Stage.map_andThen unpack,
    extractStages]

theorem exec_extract_setRom (n : BitVec 8) :
    exec (.extract n) (s.setRom rom) = mapNext (·.setRom rom) (exec (.extract n) s) :=
  (congrArg conclude (extractStages_setRom hlen pointer regions n)).trans (conclude_setRom rom _)

end

/-- Settles O30: EXTRACT always ends in a next state, and the exchange of the images commutes with it. -/
theorem unreadRomBytesHaveNoEffect : Obligations.UnreadRomBytesHaveNoEffect := by
  intro n s rom hlen pointer regions
  obtain ⟨c, payload, u, e, -⟩ := exec_ends (.extract n) s
  exact ⟨_, e, (exec_extract_setRom hlen pointer regions n).trans (congrArg (mapNext (·.setRom rom)) e)⟩

end Sys2Proof.Machine
end

section
/-! What the image given by a list of bytes holds (spec 20_memory.md R40, R53; notes/assumptions/2.md and 8.md). -/

namespace Sys2Proof.Machine

/-- Of the cells written to one address the last counts, and an address that is not among them keeps its value. -/
theorem Memory.read_writeAll {α : Type} [DecidableEq α] (dflt : α) (m cells : List (Nat × α)) (a : Nat) :
    Memory.read dflt (Memory.writeAll dflt m cells) a = (cells.reverse.lookup a).getD (Memory.read dflt m a) := by
  induction cells generalizing m with
  | nil => rfl
  | cons cell rest ih =>
    obtain ⟨b, v⟩ := cell
    have first : Memory.writeAll dflt m ((b, v) :: rest) = Memory.writeAll dflt (Memory.write dflt m b v) rest := rfl
    rw [first, ih, Memory.read_write, List.reverse_cons, List.lookup_append, Option.getD_or, List.lookup_cons]
    by_cases h : a = b
    · simp [h]
    · simp [beq_false_of_ne h, Ne.symm h]

/-- Cells at other addresses do not matter to a lookup. -/
theorem lookup_filter_key {α : Type} {p : Nat → Bool} {a : Nat} (ha : p a = true) (cells : List (Nat × α)) :
    (cells.filter fun cell => p cell.1).lookup a = cells.lookup a := by
  induction cells with
  | nil => rfl
  | cons cell rest ih =>
    obtain ⟨b, v⟩ := cell
    by_cases h : a = b
    · simp [← h, ha]
    · cases hp : p b <;> simp [List.lookup_cons, beq_false_of_ne h, hp, ih]

/-- The bytes of an image given by a list. -/
theorem Image.byte?_ofCells (length : BitVec 32) (bytes : List Host.Cell) (a : Nat) :
    (Image.ofCells length bytes).byte? a =
      if a < length.toNat then some ((bytes.reverse.lookup a).getD 0x00#8) else none := by
  have size : (Image.ofCells length bytes).size = length.toNat := rfl
  rw [Image.byte?, size]
  split
  case isTrue h =>
    rw [Image.ofCells, Memory.read_writeAll, ← List.filter_reverse,
      lookup_filter_key (p := fun a => decide (a < length.toNat)) (decide_eq_true h), Memory.read_nil]
  case isFalse => rfl

/-- Settles O34: the step attaches the image in the state in which the action is no longer to come. -/
theorem stepAttachesImage : Obligations.StepAttachesImage := by
  intro s length bytes rest h
  exact ⟨_, step_of_input h, rfl, rfl, Image.byte?_ofCells length bytes⟩

end Sys2Proof.Machine
end

section
/-! The canvas read port and the canvas as a sequence (spec 20_memory.md R46, R47). -/

namespace Sys2Proof.Machine

/-- The port shows a cell that exists. -/
theorem canvasRead_of_lt {s : State} {col row : Nat} (h : col < canvasSide s.scale ∧ row < canvasSide s.scale) :
    canvasRead col row s = some (pack (readCell s.scale col row s.canvas)) := if_pos h

/-- The port refuses every other read. -/
theorem canvasRead_of_not_lt {s : State} {col row : Nat} (h : ¬ (col < canvasSide s.scale ∧ row < canvasSide s.scale)) :
    canvasRead col row s = none := if_neg h

/-- Settles O44, by the two cases of the port's bound. -/
theorem canvasReadPort : Obligations.CanvasReadPort :=
  fun _ _ _ => ⟨canvasRead_of_lt, canvasRead_of_not_lt⟩

section
variable {α : Type} {f : Nat → List α} {k : Nat} (hf : ∀ i, (f i).length = k)
include hf

theorem length_flatMap_range (n : Nat) : ((List.range n).flatMap f).length = k * n := by
  simp [List.length_flatMap, hf, Nat.mul_comm]

/-- In a sequence of pieces of one length k, element j of piece i stands at k * i + j. -/
theorem getElem?_flatMap_range {n i j : Nat} (hi : i < n) (hj : j < k) :
    ((List.range n).flatMap f)[k * i + j]? = (f i)[j]? := by
  induction n with
  | zero => omega
  | succ n ih =>
    have before := length_flatMap_range hf n
    rw [List.range_succ, List.flatMap_append, List.flatMap_singleton]
    obtain h | rfl : i < n ∨ i = n := by omega
    · have inside : k * i + j < k * n := calc
        k * i + j < k * i + k := by omega
        _ = k * (i + 1) := rfl
        _ ≤ k * n := Nat.mul_le_mul_left k h
      rw [List.getElem?_append_left (by omega), ih h]
    · rw [List.getElem?_append_right (by omega), before, Nat.add_sub_cancel_left]

end

/-- The channels of a cell in the order in which the host streams them. -/
def cellChannels (s : State) (row col : Nat) : List Byte :=
  let color := readCell s.scale col row s.canvas
  [color.r, color.g, color.b]

/-- One row of the stream, from left to right. -/
def rowStream (s : State) (row : Nat) : List Byte := (List.range (canvasSide s.scale)).flatMap (cellChannels s row)

theorem canvasStream_eq (s : State) : canvasStream s = (List.range (canvasSide s.scale)).flatMap (rowStream s) := rfl

theorem length_cellChannels (s : State) (row col : Nat) : (cellChannels s row col).length = 3 := rfl

theorem length_rowStream (s : State) (row : Nat) : (rowStream s row).length = 3 * canvasSide s.scale :=
  length_flatMap_range (length_cellChannels s row) _

/-- Channel j of a cell stands in the stream at three times the cell's linear index, and j further. -/
theorem canvasStream_getElem? {s : State} {col row j : Nat} (hc : col < canvasSide s.scale) (hr : row < canvasSide s.scale)
    (hj : j < 3) : (canvasStream s)[3 * cellIndex s.scale col row + j]? = (cellChannels s row col)[j]? := by
  have place : 3 * cellIndex s.scale col row + j = 3 * canvasSide s.scale * row + (3 * col + j) := by
    unfold cellIndex
    ring
  rw [place, canvasStream_eq, getElem?_flatMap_range (length_rowStream s) hr (by omega), rowStream,
    getElem?_flatMap_range (length_cellChannels s row) hc hj]

/-- Settles O45: the stream is W rows of W cells of three channels. -/
theorem canvasStreamIsRowMajor : Obligations.CanvasStreamIsRowMajor := by
  intro s
  refine ⟨(length_flatMap_range (length_rowStream s) _).trans (Nat.mul_assoc ..), fun col row hc hr => ?_⟩
  exact ⟨_, _, _, canvasRead_of_lt ⟨hc, hr⟩, canvasStream_getElem? (j := 0) hc hr (by decide),
    canvasStream_getElem? (j := 1) hc hr (by decide), canvasStream_getElem? (j := 2) hc hr (by decide)⟩

end Sys2Proof.Machine
end

section
/-! The encoder and the decoder are inverse to each other on the words of the opcode map, and an illegal word is none of them
(spec 30_encoding.md R60 to R70). -/

namespace Sys2Proof

/-- Decoding undoes encoding: the opcode of each command picks its own row, its reserved bits are 0, and its fields come back. -/
theorem decode_encode (i : Instr) : decode (encode i) = .ok i := by
  rw [decode_eq_ok]
  cases i <;> simp [encode]

/-- An accepted word is put together from its own fields, so it is the word of the command that they make. -/
theorem encode_of_decode {cmd : Word} {i : Instr} (h : decode cmd = .ok i) : encode i = cmd := by
  obtain ⟨ho, hr, rfl⟩ | ⟨ho, hr, rfl⟩ | ⟨ho, hr, rfl⟩ | ⟨ho, hr, rfl⟩ | ⟨ho, hr, rfl⟩ | ⟨ho, hr, rfl⟩ | ⟨ho, hr, rfl⟩ |
    ⟨ho, hr, rfl⟩ := decode_eq_ok.mp h
  · exact wordW_of_fields ho hr
  · exact wordN_of_fields ho hr
  · exact wordP_of_fields ho hr
  · exact wordN_of_fields ho hr
  · exact wordN_of_fields ho hr
  · exact wordN_of_fields ho hr
  · exact wordS_of_fields ho hr
  · exact wordS_of_fields ho hr

/-- Settles O1. -/
theorem decodeOfEncode : Obligations.DecodeOfEncode :=
  decode_encode

/-- Settles O2. -/
theorem encodeOfDecode : Obligations.EncodeOfDecode :=
  fun _ _ => encode_of_decode

/-- Settles O3: the test `cmd & mask = match` of each row says that the opcode is the row's and the reserved bits of its format
are 0, which is when `decode_eq_ok` gives the row's command. -/
theorem decodeAcceptsExactlyTheOpcodeMap : Obligations.DecodeAcceptsExactlyTheOpcodeMap := by
  intro cmd
  refine ⟨Iff.trans ?_ (matches_formatW (op := 0x01#8)).symm, Iff.trans ?_ (matches_formatN (op := 0x02#8)).symm,
    Iff.trans ?_ (matches_formatP (op := 0x03#8)).symm, Iff.trans ?_ (matches_formatN (op := 0x04#8)).symm,
    Iff.trans ?_ (matches_formatN (op := 0x05#8)).symm, Iff.trans ?_ (matches_formatN (op := 0x06#8)).symm,
    Iff.trans ?_ (matches_formatS (op := 0x07#8)).symm, Iff.trans ?_ (matches_formatS (op := 0x08#8)).symm⟩ <;>
    simp [decode_eq_ok]

/-- Settles O5: closed words. -/
theorem sampleWordsDecode : Obligations.SampleWordsDecode := by
  unfold Obligations.SampleWordsDecode
  decide

/-- R70's condition on a word: an opcode that is not assigned, or a 1 in a reserved bit of the opcode's format. -/
def IsIllegal (cmd : Word) : Prop :=
  opcodeOf cmd = 0x00#8 ∨ 0x09#8 ≤ opcodeOf cmd ∨
    (opcodeOf cmd = 0x01#8 ∧ reservedW cmd ≠ 0#8) ∨
    ((opcodeOf cmd = 0x02#8 ∨ opcodeOf cmd = 0x04#8 ∨ opcodeOf cmd = 0x05#8 ∨ opcodeOf cmd = 0x06#8) ∧
      reservedN cmd ≠ 0#24) ∨
    (opcodeOf cmd = 0x03#8 ∧ reservedP cmd ≠ 0#14) ∨
    ((opcodeOf cmd = 0x07#8 ∨ opcodeOf cmd = 0x08#8) ∧ reservedS cmd ≠ 0#16)

/-- An accepted word has an assigned opcode and reserved bits 0. -/
theorem not_isIllegal_of_decode {cmd : Word} {i : Instr} (h : decode cmd = .ok i) : ¬ IsIllegal cmd := by
  unfold IsIllegal
  obtain ⟨ho, hr, -⟩ | ⟨ho, hr, -⟩ | ⟨ho, hr, -⟩ | ⟨ho, hr, -⟩ | ⟨ho, hr, -⟩ | ⟨ho, hr, -⟩ | ⟨ho, hr, -⟩ |
    ⟨ho, hr, -⟩ := decode_eq_ok.mp h <;> simp [ho, hr]

end Sys2Proof

namespace Sys2Proof.Machine

/-- Settles O6: an illegal word decodes to no command, and then the step is the raise of `IllegalCommand`. -/
theorem illegalWordRaisesIllegalCommand : Obligations.IllegalWordRaisesIllegalCommand := by
  intro s cmd rest hport (illegal : IsIllegal cmd)
  cases h : decode cmd with
  | ok i => exact absurd illegal (not_isIllegal_of_decode h)
  | error r => exact (step_of_command hport).trans (runCommand_of_reject h _)

end Sys2Proof.Machine
end

section
/-! The word of a command as its opcode with its operands in their places, and the assembler's table (spec 30_encoding.md R63 to
R66, R78, R79). -/

namespace Sys2Proof

section
variable (op : BitVec 8)

theorem wordW_eq_or (w : BitVec 16) : wordW op w = wordN op ||| w.setWidth 32 := by
  ext i hi
  simp [wordW, wordN]
  grind

theorem wordP_eq_or (x y : BitVec 5) : wordP op x y = wordN op ||| (y.setWidth 32 <<< 5) ||| x.setWidth 32 := by
  ext i hi
  simp [wordP, wordN]
  grind

theorem wordS_eq_or (s : BitVec 8) : wordS op s = wordN op ||| s.setWidth 32 := by
  ext i hi
  simp [wordS, wordN]
  grind

/-- The word of an operand that is written as a number inside its range (R78). -/
theorem wordW_ofNat {w : Nat} (h : w ≤ 0xFFFF) : wordW op (BitVec.ofNat 16 w) = wordN op ||| BitVec.ofNat 32 w := by
  rw [wordW_eq_or, BitVec.setWidth_ofNat_of_le_of_lt (by decide) (by omega)]

theorem wordP_ofNat {x y : Nat} (hx : x ≤ 31) (hy : y ≤ 31) :
    wordP op (BitVec.ofNat 5 x) (BitVec.ofNat 5 y) =
      wordN op ||| (BitVec.ofNat 32 y <<< 5) ||| BitVec.ofNat 32 x := by
  rw [wordP_eq_or, BitVec.setWidth_ofNat_of_le_of_lt (by decide) (by omega),
    BitVec.setWidth_ofNat_of_le_of_lt (by decide) (by omega)]

theorem wordS_ofNat {s : Nat} (h : s ≤ 255) : wordS op (BitVec.ofNat 8 s) = wordN op ||| BitVec.ofNat 32 s := by
  rw [wordS_eq_or, BitVec.setWidth_ofNat_of_le_of_lt (by decide) (by omega)]

end

/-- Settles O4. -/
theorem commandWordsOfOperands : Obligations.CommandWordsOfOperands :=
  fun w x y s => ⟨wordW_eq_or 0x01#8 w, rfl, wordP_eq_or 0x03#8 x y, rfl, rfl, rfl, wordS_eq_or 0x07#8 s,
    wordS_eq_or 0x08#8 s⟩

end Sys2Proof

namespace Sys2Proof.Machine

/-- A statement gives its words inside the range `P` of its operands, and none outside it. -/
theorem assemble_eq_ite {line : AsmLine} {words : List Word} {P : Prop} [Decidable P]
    (range : line.wellFormed = true ↔ P) (inside : P → (expandLine line).map encode = words) :
    assemble line = if P then some words else none := by
  unfold assemble
  by_cases h : P
  · rw [if_pos h, if_pos (range.mpr h), inside h]
  · rw [if_neg h, if_neg (mt range.mp h)]

/-- Settles O46: a statement without operands is a closed fact; one with operands has the word of its format. -/
theorem assemblerTable : Obligations.AssemblerTable := by
  refine ⟨fun w => ?expand, rfl, fun x y => ?drawpx, rfl, rfl, rfl, fun s => ?clear, fun s => ?extract, rfl,
    fun s => ?render⟩
  case expand => exact assemble_eq_ite decide_eq_true_iff fun h => congrArg ([·]) (wordW_ofNat 0x01#8 h)
  case drawpx =>
    exact assemble_eq_ite (by simp [AsmLine.wellFormed]) fun ⟨hx, hy⟩ => congrArg ([·]) (wordP_ofNat 0x03#8 hx hy)
  case clear => exact assemble_eq_ite decide_eq_true_iff fun h => congrArg ([·]) (wordS_ofNat 0x07#8 h)
  case extract => exact assemble_eq_ite decide_eq_true_iff fun h => congrArg ([·]) (wordS_ofNat 0x08#8 h)
  case render => exact assemble_eq_ite decide_eq_true_iff fun h => congrArg ([·, _]) (wordS_ofNat 0x07#8 h)

end Sys2Proof.Machine
end

section
/-! Bit 15 of a palette word and the whole of entry 0 do not enter UNPACK (spec 30_encoding.md R77, 41_bitmap_tile_decoder.md
R107). -/

namespace Sys2Proof.Machine

/-- Bit 15 is in none of the three channel fields (spec 40_palette_expander.md R91). -/
theorem decodeColor_mask (w : Hword) : decodeColor (w &&& 0x7FFF#16) = decodeColor w := by
  have ones : ∀ k ∈ [0, 5, 10], (0x7FFF#16).extractLsb' k 5 = BitVec.allOnes 5 := by decide
  have field : ∀ k ∈ [0, 5, 10], (w &&& 0x7FFF#16).extractLsb' k 5 = w.extractLsb' k 5 := fun k hk => by
    rw [BitVec.extractLsb'_and, ones k hk, BitVec.and_allOnes]
  unfold decodeColor
  rw [field 0 (by decide), field 5 (by decide), field 10 (by decide)]

section
variable {palette palette' : Vector Hword 16}
  (h : ∀ i (hi : i < 16), 1 ≤ i → palette[i] &&& 0x7FFF#16 = palette'[i] &&& 0x7FFF#16)
include h

/-- Index 0 looks at no entry, and any other at the colour bits of its own. -/
theorem drawIndex_congr (scale : BitVec 8) (x y : Nat) (i : BitVec 4) (canvas : List (Nat × Color)) :
    drawIndex palette scale x y i canvas = drawIndex palette' scale x y i canvas := by
  by_cases hi : i = 0#4
  · rw [hi, drawIndex_transparent, drawIndex_transparent]
  · have pos : 1 ≤ i.toNat := Nat.pos_of_ne_zero fun e => hi (BitVec.eq_of_toNat_eq e)
    rw [drawIndex_opaque _ _ _ _ hi, drawIndex_opaque _ _ _ _ hi, ← decodeColor_mask, h i.toNat i.isLt pos,
      decodeColor_mask]

theorem unpackCanvas_congr (bitmap : Vector Byte 512) (scale : BitVec 8) (canvas : List (Nat × Color)) :
    unpackCanvas bitmap palette scale canvas = unpackCanvas bitmap palette' scale canvas := by
  simp only [unpackCanvas_eq, unpackByte_eq, drawIndex_congr h]

end

/-- Settles O20: the two runs of UNPACK compute the same canvas. -/
theorem unusedPaletteBitsHaveNoEffect : Obligations.UnusedPaletteBitsHaveNoEffect := by
  intro s palette h
  have same := unpackCanvas_congr h s.bitmap s.scale s.canvas
  exact ⟨_, rfl, congrArg (fun canvas => conclude (.done (({ s with palette } : State).setCanvas canvas))) same⟩

end Sys2Proof.Machine
end

section
/-! LOAD and RENDER run the stages of EXTRACT as commands of their own: each command adds a response and a write of `STATUS.ERR`,
and no stage looks at either (spec 30_encoding.md R79, 44_extract_sequence.md R160). -/

namespace Sys2Proof.Machine

theorem Stage.andThen_eq_done {x : Stage} {next : State → Stage} {u : State} :
    x.andThen next = .done u ↔ ∃ t, x = .done t ∧ next t = .done u := by
  cases x <;> simp

/-- EXTRACT completes when the image holds the pointer and both regions that it points to. -/
theorem extractStages_done {n : BitVec 8} {s : State} {pointer : Nat} (hp : s.rom.memRead 0x68 4 = some pointer)
    (hsize : pointer + 0x240 ≤ s.rom.size) : ∃ u, extractStages n s = .done u := by
  have value : (BitVec.ofNat 32 pointer).toNat = pointer := Nat.mod_eq_of_lt (Image.memRead_four_lt hp)
  obtain ⟨short, -⟩ | ⟨v, -, hv, stages⟩ := extractStages_cases n s
  · omega
  · obtain rfl : pointer = v := Option.some.inj (hp.symm.trans hv)
    rw [value] at stages
    obtain ⟨short, -⟩ | ⟨bitmap, -, -, ⟨short, -⟩ | ⟨palette, -, -, done⟩⟩ := stages
    · omega
    · omega
    · exact ⟨_, done⟩

/-- The state with another `STATUS.ERR` and other responses, which is all that the end of a command changes. -/
def State.answered (s : State) (e : BitVec 3) (r : List Word) : State := { s with err := e, responses := r }

theorem finish_answered (c : Code) (payload : BitVec 24) (s : State) (e : BitVec 3) (r : List Word) :
    finish c payload (s.answered e r) = s.answered (codeErr c) (r ++ [respondWord c payload]) := rfl

theorem fetchRegion_answered {α : Type} (s : State) (e : BitVec 3) (r : List Word) (start size : Nat) (copy : Option α)
    (write : α → State) :
    fetchRegion (s.answered e r) start size copy (fun v => (write v).answered e r) =
      (fetchRegion s start size copy write).map (·.answered e r) :=
  fetchRegion_map s (·.answered e r) rfl _ _ _ write

/-- A program's first word runs its command. -/
theorem runProgram_encode {i : Instr} {s t : State} (h : exec i s = .next t) (rest : List Word) :
    runProgram (encode i :: rest) s = runProgram rest t := by
  simp only [runProgram, runCommand_of_decode (decode_encode i), h]

/-- A command whose body is done, run after other commands, writes what its body writes and answers `OK`. -/
theorem runProgram_of_done {i : Instr} {stage : State → Stage} (hexec : ∀ s, exec i s = conclude (stage s))
    (hstage : ∀ s e r, stage (s.answered e r) = (stage s).map (·.answered e r)) {s u : State} (h : stage s = .done u)
    (e : BitVec 3) (r rest : List Word) :
    ∃ r', runProgram (encode i :: rest) (s.answered e r) = runProgram rest (u.answered 0#3 r') := by
  have next : exec i (s.answered e r) = .next (u.answered 0#3 (r ++ [respondWord .ok 0#24])) := by
    rw [hexec, hstage, h, Stage.map_done, conclude_done, finish_answered]
    rfl
  exact ⟨_, runProgram_encode next rest⟩

/-- The commands of LOAD and RENDER leave what the stages of EXTRACT leave. -/
theorem runProgram_load_render {n : BitVec 8} {s u : State} (h : extractStages n s = .done u) :
    ∃ r, runProgram ([.resolve, .sliceb, .slicep, .clear n, .unpack].map encode) s = .next (u.answered 0#3 r) := by
  obtain ⟨s4, h4, h5⟩ := Stage.andThen_eq_done.mp h
  obtain ⟨s3, h3, h4⟩ := Stage.andThen_eq_done.mp h4
  obtain ⟨s2, h2, h3⟩ := Stage.andThen_eq_done.mp h3
  obtain ⟨s1, h1, h2⟩ := Stage.andThen_eq_done.mp h2
  obtain ⟨r1, resolve⟩ := runProgram_of_done (i := .resolve) (fun _ => rfl)
    (fun s e r => fetchRegion_answered s e r _ _ _ fun v => s.setTileOffset (BitVec.ofNat 32 v)) h1 s.err s.responses _
  obtain ⟨r2, sliceb⟩ := runProgram_of_done (i := .sliceb) (fun _ => rfl)
    (fun s e r => fetchRegion_answered s e r _ _ _ s.setBitmap) h2 0#3 r1 _
  obtain ⟨r3, slicep⟩ := runProgram_of_done (i := .slicep) (fun _ => rfl)
    (fun s e r => fetchRegion_answered s e r _ _ _ s.setPalette) h3 0#3 r2 _
  obtain ⟨r4, clear⟩ := runProgram_of_done (i := .clear n) (fun _ => rfl) (fun _ _ _ => rfl) h4 0#3 r3 _
  obtain ⟨r5, unpack⟩ := runProgram_of_done (i := .unpack) (fun _ => rfl) (fun _ _ _ => rfl) h5 0#3 r4 []
  exact ⟨r5, resolve.trans <| sliceb.trans <| slicep.trans <| clear.trans unpack⟩

theorem assemble_render_toNat (n : BitVec 8) : assemble (.render n.toNat) = some ([.clear n, .unpack].map encode) := by
  have range : n.toNat ≤ 255 := by omega
  simp [assemble, AsmLine.wellFormed, expandLine, range]

/-- Settles O29. -/
theorem loadRenderEqualsExtract : Obligations.LoadRenderEqualsExtract := by
  intro n s pointer hp hsize
  obtain ⟨u, hu⟩ := extractStages_done (n := n) hp hsize
  obtain ⟨r, run⟩ := runProgram_load_render hu
  exact ⟨_, _, _, _, rfl, assemble_render_toNat n, run, congrArg conclude hu, rfl, rfl, rfl, rfl, rfl, rfl, rfl, rfl⟩

end Sys2Proof.Machine
end

section
/-! The response word of a command: its code, and its payload (spec 30_encoding.md R68, R69, 60_exceptions.md R180). -/

namespace Sys2Proof.Machine

theorem payload_respondWord (c : Code) (payload : BitVec 24) : (respondWord c payload).extractLsb' 0 24 = payload :=
  BitVec.extractLsb'_append_eq_right

/-- The payload a command ended with can be read off its last response. -/
theorem payload_of_finish {c c' : Code} {p p' : BitVec 24} {u u' : State} (h : finish c p u = finish c' p' u') :
    p = p' := by
  have responses := congrArg State.responses h
  rw [finish_responses, finish_responses] at responses
  have word : respondWord c p = respondWord c' p' := by simpa using congrArg List.getLast? responses
  rw [← payload_respondWord c p, word, payload_respondWord]

theorem payload_of_conclude {x : Stage} {c : Code} {p : BitVec 24} {u : State}
    (h : conclude x = .next (finish c p u)) : p = 0#24 := by
  cases x with
  | done s => exact (payload_of_finish (Host.Outcome.next.inj h)).symm
  | raised c s => exact (payload_of_finish (Host.Outcome.next.inj h)).symm
  | stopped f => cases h

/-- Every command but EXPAND ends by `conclude`, so with payload 0. -/
theorem exec_eq_conclude {i : Instr} (hi : ∀ w, i ≠ .expand w) (s : State) : ∃ x, exec i s = conclude x := by
  cases i with
  | expand w => exact absurd rfl (hi w)
  | unpack => exact ⟨unpackStage s, rfl⟩
  | drawpx x y => exact ⟨.done _, rfl⟩
  | resolve => exact ⟨resolveStage s, rfl⟩
  | sliceb => exact ⟨slicebStage s, rfl⟩
  | slicep => exact ⟨slicepStage s, rfl⟩
  | clear n => exact ⟨clearStage n s, rfl⟩
  | extract n => exact ⟨extractStages n s, rfl⟩

/-- The body of a command returns no response of its own. -/
theorem BodyEnds.responses {s u : State} {i : Instr} {c : Code} (h : BodyEnds s i c u) : u.responses = s.responses := by
  cases h <;> rfl

/-- A command ends `OK`, or it is one that reads the image and raises `OutOfBounds`. -/
theorem BodyEnds.code {s u : State} {i : Instr} {c : Code} (h : BodyEnds s i c u) :
    c = .ok ∨ (c = .outOfBounds ∧ (i = .resolve ∨ i = .sliceb ∨ i = .slicep ∨ ∃ n, i = .extract n)) := by
  cases h <;> simp

/-- `exec_ends` with the payload: the packed `COLOR` after an EXPAND and 0 after any other command. -/
theorem exec_responds (i : Instr) (s : State) :
    ∃ c payload u, exec i s = .next (finish c payload u) ∧ BodyEnds s i c u ∧
      ((∃ w, i = .expand w) → payload = pack u.color) ∧ ((∀ w, i ≠ .expand w) → payload = 0#24) := by
  obtain ⟨c, payload, u, e, hu⟩ := exec_ends i s
  refine ⟨c, payload, u, e, hu, ?_, fun hi => ?_⟩
  · rintro ⟨w, rfl⟩
    cases hu
    exact (payload_of_finish (Host.Outcome.next.inj e)).symm
  · obtain ⟨x, hx⟩ := exec_eq_conclude hi s
    exact payload_of_conclude (hx.symm.trans e)

/-- Settles O37: a word that is no command answers code 2; a command answers as its body ended, with code 0 or 1. -/
theorem everyCommandResponds : Obligations.EveryCommandResponds := by
  intro cmd s
  cases h : decode cmd with
  | error r =>
    exact ⟨_, 2, 0#24, runCommand_of_reject h s, le_rfl, rfl, rfl, nofun, fun _ => rfl, by simp, nofun⟩
  | ok i =>
    obtain ⟨c, payload, u, e, hu, color, zero⟩ := exec_responds i s
    have run := (runCommand_of_decode h s).trans e
    have responses : (finish c payload u).responses = s.responses ++ [respondWord c payload] := by
      rw [finish_responses, hu.responses]
    simp only [Except.ok.injEq, ne_eq]
    obtain rfl | ⟨rfl, fetches⟩ := hu.code
    · exact ⟨_, 0, payload, run, by decide, rfl, responses, color, zero, by simp, fun _ _ h0 => absurd rfl h0⟩
    · exact ⟨_, 1, payload, run, by decide, rfl, responses, color, zero, by simp, fun j hj _ => hj ▸ fetches⟩

end Sys2Proof.Machine
end

section
/-! The colour expander: the value and the bits of an expanded channel, the channel fields of a palette word, and EXPAND (spec
40_palette_expander.md R90 to R93). -/

namespace Sys2Proof.Machine

/-- The sum of R90 is at most 255, so the 8 bits of the result hold all of it. -/
theorem expand5_toNat (ch : BitVec 5) : (expand5 ch).toNat = ch.toNat <<< 3 + ch.toNat >>> 2 := by
  have bound : ch.toNat <<< 3 + ch.toNat >>> 2 < 2 ^ 8 := by
    rw [Nat.shiftLeft_eq, Nat.shiftRight_eq_div_pow]
    omega
  exact Nat.mod_eq_of_lt bound

/-- The shifts of R90 as the arithmetic that `omega` reads. -/
theorem expand5_toNat_eq_mul_add_div (ch : BitVec 5) : (expand5 ch).toNat = ch.toNat * 8 + ch.toNat / 4 := by
  rw [expand5_toNat, Nat.shiftLeft_eq, Nat.shiftRight_eq_div_pow]

/-- Expansion is strictly increasing (R92). -/
theorem expand5_lt_expand5 {a b : BitVec 5} (h : a < b) : expand5 a < expand5 b := by
  rw [BitVec.lt_def] at h ⊢
  rw [expand5_toNat_eq_mul_add_div, expand5_toNat_eq_mul_add_div]
  omega

/-- The term `ch >> 2` adds its one more when the channel steps to a multiple of 4 (R92). -/
theorem expand5_succ_toNat {n : Nat} (h : n < 31) :
    (expand5 (BitVec.ofNat 5 (n + 1))).toNat =
      (expand5 (BitVec.ofNat 5 n)).toNat + if (n + 1) % 4 = 0 then 9 else 8 := by
  rw [expand5_toNat_eq_mul_add_div, expand5_toNat_eq_mul_add_div, BitVec.toNat_ofNat,
    BitVec.toNat_ofNat]
  split <;> omega

/-- The top five bits of an expanded channel are the channel (R92). -/
theorem expand5_toNat_shiftRight (ch : BitVec 5) : (expand5 ch).toNat >>> 3 = ch.toNat := by
  rw [expand5_toNat_eq_mul_add_div, Nat.shiftRight_eq_div_pow]
  omega

/-- `ch >> 2` fits in the three bits that `ch << 3` leaves 0, so the sum puts the two side by side (R90). -/
theorem expand5_eq_append (ch : BitVec 5) : expand5 ch = ch ++ ch.extractLsb' 2 3 := by
  have low : ch.toNat >>> 2 < 2 ^ 3 := by
    rw [Nat.shiftRight_eq_div_pow]
    omega
  apply BitVec.eq_of_toNat_eq
  rw [expand5_toNat, BitVec.toNat_append, BitVec.extractLsb'_toNat, Nat.mod_eq_of_lt low,
    Nat.shiftLeft_add_eq_or_of_lt low]

/-- A channel field of a palette word, said by a shift and a mask (R91). -/
theorem extractLsb'_eq_ofNat_and (w : Hword) (k : Nat) :
    w.extractLsb' k 5 = BitVec.ofNat 5 ((w.toNat >>> k) &&& 0x1F) := by
  apply BitVec.eq_of_toNat_eq
  rw [BitVec.extractLsb'_toNat, BitVec.toNat_ofNat, Nat.and_two_pow_sub_one_eq_mod _ 5, Nat.mod_mod]

/-- Settles O7. -/
theorem expand5Formula : Obligations.Expand5Formula :=
  expand5_toNat

/-- Settles O8: the table is a closed fact; each property holds of every channel by its own lemma. -/
theorem expand5Table : Obligations.Expand5Table :=
  ⟨by decide, fun _ _ => expand5_lt_expand5, fun _ => expand5_succ_toNat, expand5_toNat_shiftRight, expand5_eq_append⟩

/-- Settles O9: the three fields, and `decodeColor_mask` for bit 15. -/
theorem decodeColorChannels : Obligations.DecodeColorChannels := by
  intro w
  refine ⟨?_, (decodeColor_mask w).symm⟩
  simp only [decodeColor, Config.channelBitsIn, extractLsb'_eq_ofNat_and, Nat.shiftRight_zero]

/-- Settles O11: the word is its opcode with `w` in its place, and the end of the command writes `STATUS.ERR` and the response. -/
theorem expandSetsColor : Obligations.ExpandSetsColor :=
  fun w _ => ⟨wordW_eq_or 0x01#8 w, rfl⟩

end Sys2Proof.Machine
end

section
/-! The tile decoder: the nibbles of the bitmap by their logical pixels, what drawing a list of nibbles leaves in each
cell, and UNPACK as one such list (spec 41_bitmap_tile_decoder.md R103 to R111). -/

namespace Sys2Proof.Machine

/-- A chunk is a tile: its column in the grid of tiles, then the column of the byte in the tile (R110). -/
theorem pixelX_eq_grid (c p : Nat) : pixelX c p = 8 * (c % 4) + 2 * (p % 4) := by
  rw [pixelX_eq]
  omega

theorem pixelY_eq_grid (c p : Nat) : pixelY c p = 8 * (c / 4) + p / 4 := by
  rw [pixelY_eq]
  omega

/-- The byte that governs either pixel of byte p of chunk c is that byte (R110). -/
theorem governingByte_pixel {c p d : Nat} (hp : p < 32) (hd : d ≤ 1) :
    governingByte (pixelX c p + d) (pixelY c p) = 32 * c + p := by
  rw [governingByte, pixelX_eq_grid, pixelY_eq_grid]
  omega

/-- Settles O14. -/
theorem coordinateMapping : Obligations.CoordinateMapping := by
  intro c p hc hp
  have hx := pixelX_eq_grid c p
  have hy := pixelY_eq_grid c p
  exact ⟨hx, hy, by omega, by omega, by omega, governingByte_pixel hp (Nat.zero_le 1), governingByte_pixel hp le_rfl⟩

/-- The column of the logical pixel that a nibble draws (R106). -/
def nibbleX (n : Nibble) : Nat := pixelX n.1.val n.2.1.val + n.2.2.toNat

/-- The row of the logical pixel that a nibble draws (R106). -/
def nibbleY (n : Nibble) : Nat := pixelY n.1.val n.2.1.val

theorem nibbleX_lt (n : Nibble) : nibbleX n < 32 :=
  (Nat.add_le_add_left n.2.2.toNat_le _).trans_lt (pixelX_succ_lt _ _)

theorem nibbleY_lt (n : Nibble) : nibbleY n < 32 := pixelY_lt n.1 n.2.1

/-- The nibble that draws the logical pixel (X, Y) (R110). -/
def nibbleAt (X Y : Fin 32) : Nibble :=
  (⟨4 * (Y / 8) + X / 8, by omega⟩, ⟨4 * (Y % 8) + X % 8 / 2, by omega⟩, decide (X.val % 2 = 1))

/-- A nibble draws the pixel (X, Y) exactly when it is the one at (X, Y). -/
theorem eq_nibbleAt_iff {n : Nibble} {X Y : Fin 32} : n = nibbleAt X Y ↔ nibbleX n = X ∧ nibbleY n = Y := by
  obtain ⟨c, p, high⟩ := n
  simp only [nibbleX, nibbleY, nibbleAt, pixelX_eq_grid, pixelY_eq_grid, Prod.mk.injEq, Fin.ext_iff]
  cases high <;> simp <;> omega

/-- Settles O15. -/
theorem nibblesMapOneToOne : Obligations.NibblesMapOneToOne :=
  fun X Y hX hY => ⟨nibbleAt ⟨X, hX⟩ ⟨Y, hY⟩, eq_nibbleAt_iff.mp rfl, fun _ h => eq_nibbleAt_iff.mpr h⟩

/-- The pixel index that a nibble holds, named by the pixel it draws (R102, R111). -/
def nibbleIndex (bitmap : Vector Byte 512) (n : Nibble) : BitVec 4 :=
  governingIndex (bitmap[32 * n.1.val + n.2.1.val]'(by omega)) (nibbleX n)

theorem governingByte_lt {X Y : Nat} (hX : X < 32) (hY : Y < 32) : governingByte X Y < 512 := by
  unfold governingByte
  omega

theorem nibbleIndex_nibbleAt (bitmap : Vector Byte 512) (X Y : Fin 32) :
    nibbleIndex bitmap (nibbleAt X Y) =
      governingIndex (bitmap[governingByte X Y]'(governingByte_lt X.isLt Y.isLt)) X := by
  have hX : nibbleX (nibbleAt X Y) = X := (eq_nibbleAt_iff.mp rfl).1
  rw [nibbleIndex, hX]
  rfl

/-- What a cell of colour `old` becomes when the pixel it belongs to is drawn with index i (R104, R105). -/
def drawnOver (palette : Vector Hword 16) (i : BitVec 4) (old : Color) : Color :=
  if i = 0#4 then old else decodeColor (palette[i.toNat]'(i.isLt))

section
variable (bitmap : Vector Byte 512) (palette : Vector Hword 16) (scale : BitVec 8)

/-- Both nibbles of a byte draw alike: the left pixel's column is even, the right one's is odd (R106, R110). -/
theorem drawNibble_eq (canvas : List (Nat × Color)) (n : Nibble) :
    drawNibble bitmap palette scale canvas n =
      drawIndex palette scale (nibbleX n) (nibbleY n) (nibbleIndex bitmap n) canvas := by
  obtain ⟨c, p, high⟩ := n
  have even : pixelX c p % 2 = 0 := by rw [pixelX_eq_grid]; omega
  cases high with
  | false => simp [drawNibble, nibbleX, nibbleY, nibbleIndex, governingIndex, leftIndex, even]
  | true =>
    have odd : (pixelX c p + 1) % 2 = 1 := by omega
    simp [drawNibble, nibbleX, nibbleY, nibbleIndex, governingIndex, rightIndex, odd]

/-- Drawing over what was drawn with the same index changes nothing more. -/
@[simp] theorem drawnOver_drawnOver (i : BitVec 4) (old : Color) :
    drawnOver palette i (drawnOver palette i old) = drawnOver palette i old := by
  unfold drawnOver
  split <;> rfl

section
variable {scale} {col row : Nat} (hc : col < canvasSide scale) (hr : row < canvasSide scale)

/-- The nibble that governs a cell of the canvas (R111). -/
def cellNibble : Nibble := nibbleAt ⟨col / scale.toNat, logical_lt hc⟩ ⟨row / scale.toNat, logical_lt hr⟩

theorem eq_cellNibble_iff {n : Nibble} :
    n = cellNibble hc hr ↔ col / scale.toNat = nibbleX n ∧ row / scale.toNat = nibbleY n :=
  eq_nibbleAt_iff.trans (and_congr eq_comm eq_comm)

/-- A nibble changes the cells it governs and no other. -/
theorem readCell_drawNibble (canvas : List (Nat × Color)) (n : Nibble) :
    readCell scale col row (drawNibble bitmap palette scale canvas n) =
      if n = cellNibble hc hr then drawnOver palette (nibbleIndex bitmap n) (readCell scale col row canvas)
      else readCell scale col row canvas := by
  rw [drawNibble_eq]
  by_cases hi : nibbleIndex bitmap n = 0#4
  · simp [hi, drawnOver]
  · have hS : 0 < scale.toNat := Nat.pos_of_ne_zero fun h => by simp [canvasSide, h] at hc
    rw [drawIndex_opaque _ _ _ _ hi, readCell_drawBlock (nibbleX_lt n) _ _ hc]
    simp only [hS, true_and, ← eq_cellNibble_iff hc hr, drawnOver, hi, if_false]

/-- A list of nibbles, drawn in its order and each as often as it stands there, changes a cell exactly when the nibble that
governs it is in the list. -/
theorem readCell_foldl_drawNibble (order : List Nibble) (canvas : List (Nat × Color)) :
    readCell scale col row (order.foldl (drawNibble bitmap palette scale) canvas) =
      if cellNibble hc hr ∈ order then
        drawnOver palette (nibbleIndex bitmap (cellNibble hc hr)) (readCell scale col row canvas)
      else readCell scale col row canvas := by
  induction order generalizing canvas with
  | nil => simp
  | cons n rest ih =>
    rw [List.foldl_cons, ih, readCell_drawNibble bitmap palette hc hr]
    by_cases hn : n = cellNibble hc hr
    · simp [hn]
    · simp [hn, Ne.symm hn]

end

/-- What every block fill inside the icon keeps, a list of nibbles keeps. -/
theorem foldl_drawNibble_keeps (order : List Nibble) {canvas : List (Nat × Color)} (P : List (Nat × Color) → Prop)
    (h0 : P canvas)
    (hd : ∀ acc x y color, x < 32 → y < 32 → P acc → P (drawBlock scale x y color acc)) :
    P (order.foldl (drawNibble bitmap palette scale) canvas) := by
  refine List.foldlRecOn (motive := P) _ _ h0 fun acc hacc n _ => ?_
  rw [drawNibble_eq]
  by_cases hi : nibbleIndex bitmap n = 0#4
  · rw [hi]; exact hacc
  · rw [drawIndex_opaque _ _ _ _ hi]
    exact hd acc _ _ _ (nibbleX_lt n) (nibbleY_lt n) hacc

/-- A list of nibbles keeps the canonical form. -/
theorem wf_foldl_drawNibble (order : List Nibble) {canvas : List (Nat × Color)}
    (h : Memory.wf Config.background canvas = true) :
    Memory.wf Config.background (order.foldl (drawNibble bitmap palette scale) canvas) = true :=
  foldl_drawNibble_keeps bitmap palette scale order (Memory.wf Config.background · = true) h
    fun _ _ _ _ _ _ => wf_drawBlock

/-- A list of nibbles writes no address outside the W * W cells (42_pixel_rasterizer.md R121). -/
theorem read_foldl_drawNibble_outside (order : List Nibble) (canvas : List (Nat × Color)) {a : Nat}
    (ha : canvasSide scale * canvasSide scale ≤ a) :
    Memory.read Config.background (order.foldl (drawNibble bitmap palette scale) canvas) a =
      Memory.read Config.background canvas a :=
  foldl_drawNibble_keeps bitmap palette scale order
    (fun acc => Memory.read Config.background acc a = Memory.read Config.background canvas a) rfl
    fun _ _ _ _ hx hy hacc => (read_drawBlock_outside fun _ _ hdx hdy =>
      ((cellIndex_lt (block_lt hx hdx) (block_lt hy hdy)).trans_le ha).ne').trans hacc

end

/-- The nibbles in the order in which UNPACK scans them: chunks upward, bytes upward, left before right (R106, R107). -/
def scanOrder : List Nibble :=
  (List.finRange 16).flatMap fun c => (List.finRange 32).flatMap fun p => [(c, p, false), (c, p, true)]

theorem mem_scanOrder (n : Nibble) : n ∈ scanOrder := by
  obtain ⟨c, p, high⟩ := n
  cases high <;> simp [scanOrder]

section
variable (bitmap : Vector Byte 512) (palette : Vector Hword 16) (scale : BitVec 8)

theorem unpackCanvas_eq_foldl_scanOrder (canvas : List (Nat × Color)) :
    unpackCanvas bitmap palette scale canvas = scanOrder.foldl (drawNibble bitmap palette scale) canvas := by
  rw [unpackCanvas_eq, scanOrder]
  simp only [List.foldl_flatMap]
  rfl

/-- UNPACK in closed form: every cell is drawn over with the index that governs it (R111). -/
theorem readCell_unpackCanvas {scale : BitVec 8} {col row : Nat} (hc : col < canvasSide scale)
    (hr : row < canvasSide scale) (canvas : List (Nat × Color)) :
    readCell scale col row (unpackCanvas bitmap palette scale canvas) =
      drawnOver palette
        (governingIndex (bitmap[governingByte (col / scale.toNat) (row / scale.toNat)]'
          (governingByte_lt (logical_lt hc) (logical_lt hr))) (col / scale.toNat))
        (readCell scale col row canvas) := by
  rw [unpackCanvas_eq_foldl_scanOrder, readCell_foldl_drawNibble bitmap palette hc hr, if_pos (mem_scanOrder _), cellNibble,
    nibbleIndex_nibbleAt]

/-- UNPACK writes no address outside the W * W cells (42_pixel_rasterizer.md R121). -/
theorem read_unpackCanvas_outside (canvas : List (Nat × Color)) {a : Nat}
    (ha : canvasSide scale * canvasSide scale ≤ a) :
    Memory.read Config.background (unpackCanvas bitmap palette scale canvas) a =
      Memory.read Config.background canvas a := by
  rw [unpackCanvas_eq_foldl_scanOrder, read_foldl_drawNibble_outside _ _ _ _ _ ha]

/-- The canvas is the one that UNPACK makes whenever every nibble is drawn, in whatever order and however often (R108). -/
theorem foldl_drawNibble_eq_unpackCanvas {canvas : List (Nat × Color)} (hwf : Memory.wf Config.background canvas = true)
    {order : List Nibble} (hall : ∀ n, n ∈ order) :
    order.foldl (drawNibble bitmap palette scale) canvas = unpackCanvas bitmap palette scale canvas := by
  rw [unpackCanvas_eq_foldl_scanOrder]
  refine canvas_ext (scale := scale) (wf_foldl_drawNibble _ _ _ _ hwf) (wf_foldl_drawNibble _ _ _ _ hwf)
    (fun col row hc hr => ?_) fun a ha => ?_
  · rw [readCell_foldl_drawNibble _ _ hc hr, readCell_foldl_drawNibble _ _ hc hr, if_pos (hall _), if_pos (mem_scanOrder _)]
  · rw [read_foldl_drawNibble_outside _ _ _ _ _ ha, read_foldl_drawNibble_outside _ _ _ _ _ ha]

/-- Two scans are one scan of a list that holds every nibble (R107 corner case d). -/
theorem unpackCanvas_unpackCanvas {canvas : List (Nat × Color)} (hwf : Memory.wf Config.background canvas = true) :
    unpackCanvas bitmap palette scale (unpackCanvas bitmap palette scale canvas) =
      unpackCanvas bitmap palette scale canvas :=
  calc
    _ = (scanOrder ++ scanOrder).foldl (drawNibble bitmap palette scale) canvas := by
      rw [List.foldl_append, unpackCanvas_eq_foldl_scanOrder, unpackCanvas_eq_foldl_scanOrder]
    _ = _ := foldl_drawNibble_eq_unpackCanvas bitmap palette scale hwf fun n => List.mem_append_left _ (mem_scanOrder n)

/-- A bitmap of index 0 alone draws nothing (R104). -/
theorem unpackCanvas_of_transparent {bitmap : Vector Byte 512} (h : ∀ i (hi : i < 512), bitmap[i] = 0x00#8)
    (canvas : List (Nat × Color)) :
    unpackCanvas bitmap palette scale canvas = canvas := by
  have transparent : ∀ n, nibbleIndex bitmap n = 0#4 := fun n => by simp [nibbleIndex, h, governingIndex]
  have draws_nothing : ∀ acc n, drawNibble bitmap palette scale acc n = acc := fun acc n => by
    rw [drawNibble_eq, transparent, drawIndex_transparent]
  rw [unpackCanvas_eq_foldl_scanOrder]
  exact List.foldl_fixed' (draws_nothing canvas) scanOrder

end

/-- UNPACK, whole: only the canvas, `STATUS.ERR` and the responses change (R107). -/
theorem exec_unpack (s : State) :
    exec .unpack s = .next { s with
      canvas := unpackCanvas s.bitmap s.palette s.scale s.canvas
      err := 0#3
      responses := s.responses ++ [0x00000000#32] } := rfl

/-- `readCell_unpackCanvas` at the canvas read port. -/
theorem canvasRead_of_exec_unpack {s t : State} (h : exec .unpack s = .next t) {col row : Nat}
    (hc : col < canvasSide s.scale) (hr : row < canvasSide s.scale) :
    canvasRead col row t = some (pack (drawnOver s.palette
      (governingIndex (s.bitmap[governingByte (col / s.scale.toNat) (row / s.scale.toNat)]'
        (governingByte_lt (logical_lt hc) (logical_lt hr))) (col / s.scale.toNat))
      (readCell s.scale col row s.canvas))) := by
  have ht := Host.Outcome.next.inj (h.symm.trans (exec_unpack s))
  have scale : t.scale = s.scale := by rw [ht]
  have canvas : t.canvas = unpackCanvas s.bitmap s.palette s.scale s.canvas := by rw [ht]
  rw [canvasRead_of_lt (s := t) (scale ▸ ⟨hc, hr⟩), scale, canvas, readCell_unpackCanvas _ _ hc hr]

/-- Settles O16: the two cases of an index are the two of `drawnOver`. -/
theorem unpackClosedForm : Obligations.UnpackClosedForm := by
  intro s
  refine ⟨_, exec_unpack s, rfl, fun col row hc hr => ?_, fun a => read_unpackCanvas_outside _ _ _ _⟩
  have after := canvasRead_of_exec_unpack (exec_unpack s) hc hr
  refine ⟨_, Vector.getElem?_eq_getElem (governingByte_lt (logical_lt hc) (logical_lt hr)), fun hi => ?_, fun hi => ?_⟩
  · exact after.trans <| (congrArg (some <| pack ·) (if_pos hi)).trans (canvasRead_of_lt ⟨hc, hr⟩).symm
  · exact after.trans <| congrArg (some <| pack ·) (if_neg hi)

/-- Settles O17. -/
theorem unpackAllTransparentDrawsNothing : Obligations.UnpackAllTransparentDrawsNothing := by
  intro s h
  rw [exec_unpack, unpackCanvas_of_transparent _ _ h]

/-- Settles O18. -/
theorem unpackTwiceIsOnce : Obligations.UnpackTwiceIsOnce := by
  intro s t hwf ht
  obtain rfl := Host.Outcome.next.inj ((exec_unpack s).symm.trans ht)
  rw [exec_unpack, unpackCanvas_unpackCanvas _ _ _ hwf]

/-- Settles O19. -/
theorem unpackOrderUnobservable : Obligations.UnpackOrderUnobservable :=
  fun bitmap palette scale _ _ hwf hall => foldl_drawNibble_eq_unpackCanvas bitmap palette scale hwf hall

end Sys2Proof.Machine
end

section
/-! The rasteriser: DRAWPX paints the S by S block of its pixel, and CLEAR makes an all-white canvas (spec
42_pixel_rasterizer.md R120 to R124). -/

namespace Sys2Proof.Machine

/-- `readCell_drawBlock` with the block as R120 gives it: S columns from `x * S` on and S rows from `y * S` on. -/
theorem readCell_drawBlock_range {scale : BitVec 8} {x y : Nat} (hx : x < 32) (color : Color)
    (canvas : List (Nat × Color)) {col row : Nat} (hc : col < canvasSide scale) :
    readCell scale col row (drawBlock scale x y color canvas) =
      if (x * scale.toNat ≤ col ∧ col < x * scale.toNat + scale.toNat) ∧
          (y * scale.toNat ≤ row ∧ row < y * scale.toNat + scale.toNat) then color
      else readCell scale col row canvas := by
  have hS : 0 < scale.toNat := Nat.pos_of_ne_zero fun h => by simp [canvasSide, h] at hc
  rw [readCell_drawBlock hx color canvas hc]
  simp only [hS, true_and, Nat.div_eq_iff hS, Nat.le_sub_one_iff_lt (Nat.add_pos_right _ hS)]

/-- DRAWPX, whole: only the canvas, `STATUS.ERR` and the responses change (R122). -/
theorem exec_drawpx (x y : BitVec 5) (s : State) :
    exec (.drawpx x y) s = .next { s with
      canvas := drawBlock s.scale x.toNat y.toNat s.color s.canvas
      err := 0#3
      responses := s.responses ++ [0x00000000#32] } := rfl

/-- `readCell_drawBlock_range` at the canvas read port. -/
theorem canvasRead_of_exec_drawpx {x y : BitVec 5} {s t : State} (h : exec (.drawpx x y) s = .next t) {col row : Nat}
    (hc : col < canvasSide s.scale) (hr : row < canvasSide s.scale) :
    canvasRead col row t =
      if (x.toNat * s.scale.toNat ≤ col ∧ col < x.toNat * s.scale.toNat + s.scale.toNat) ∧
          (y.toNat * s.scale.toNat ≤ row ∧ row < y.toNat * s.scale.toNat + s.scale.toNat) then some (pack s.color)
      else canvasRead col row s := by
  have ht := Host.Outcome.next.inj (h.symm.trans (exec_drawpx x y s))
  have scale : t.scale = s.scale := by rw [ht]
  have canvas : t.canvas = drawBlock s.scale x.toNat y.toNat s.color s.canvas := by rw [ht]
  rw [canvasRead_of_lt (s := t) (scale ▸ ⟨hc, hr⟩), scale, canvas, readCell_drawBlock_range x.isLt _ _ hc,
    canvasRead_of_lt (s := s) ⟨hc, hr⟩, apply_ite pack, apply_ite some]

/-- CLEAR, whole: a canvas with no listed cell, and the new scale (R123). -/
theorem exec_clear (n : BitVec 8) (s : State) :
    exec (.clear n) s = .next { s with
      scale := n
      canvas := []
      err := 0#3
      responses := s.responses ++ [0x00000000#32] } := rfl

/-- White, as the port packs it. -/
theorem pack_background : pack Config.background = 0xFFFFFF#24 := rfl

/-- On a canvas with no listed cell the port shows white wherever a cell exists. -/
theorem canvasRead_of_canvas_nil {s : State} (h : s.canvas = []) (col row : Nat) :
    canvasRead col row s = if col < canvasSide s.scale ∧ row < canvasSide s.scale then some 0xFFFFFF#24 else none := by
  rw [canvasRead, h, readCell, Memory.read_nil, pack_background]

/-- Settles O12: the cells by what the read port shows, every other address by `read_drawBlock_outside`. -/
theorem drawpxPaintsBlock : Obligations.DrawpxPaintsBlock :=
  fun x y s => ⟨wordP_eq_or 0x03#8 x y, _, exec_drawpx x y s, rfl,
    fun _ _ => canvasRead_of_exec_drawpx (exec_drawpx x y s), fun _ => read_drawBlock_outside⟩

/-- Settles O13: the old canvas goes with its list, and every cell of a canvas with no listed cell is white. -/
theorem clearMakesWhiteCanvas : Obligations.ClearMakesWhiteCanvas :=
  fun n s => ⟨wordS_eq_or 0x07#8 n, _, exec_clear n s, rfl, canvasRead_of_canvas_nil rfl, Memory.read_nil _⟩

end Sys2Proof.Machine
end

section
/-! The ROM fetch front end: each of RESOLVE, SLICEB and SLICEP takes its region when the image holds all of it, and raises
`OutOfBounds` with nothing taken when it does not (spec 43_rom_fetch.md R141 to R144). -/

namespace Sys2Proof.Machine

/-- RESOLVE on an image that holds the pointer: its four bytes, the lowest first, become `TILE_OFFSET` (R141). -/
theorem exec_resolve_of_inside {s : State} (h : 0x6C ≤ s.rom.size) :
    ∃ b0 b1 b2 b3 : Byte, s.rom.byte? 0x68 = some b0 ∧ s.rom.byte? 0x69 = some b1 ∧ s.rom.byte? 0x6A = some b2 ∧
      s.rom.byte? 0x6B = some b3 ∧
      exec .resolve s = .next (finish .ok 0#24 (s.setTileOffset (b3 ++ b2 ++ b1 ++ b0))) := by
  obtain ⟨-, v, hv, done⟩ | ⟨short, -⟩ := resolveStage_cases s
  · obtain ⟨b0, b1, b2, b3, h0, h1, h2, h3, rfl⟩ := Image.memRead_four.mp hv
    rw [pointer_value] at done
    exact ⟨b0, b1, b2, b3, h0, h1, h2, h3, congrArg conclude done⟩
  · omega

/-- RESOLVE on an image that ends before the pointer does (R141). -/
theorem exec_resolve_of_short {s : State} (h : s.rom.size < 0x6C) : exec .resolve s = .next (raise .outOfBounds s) := by
  obtain ⟨inside, -⟩ | ⟨-, raised⟩ := resolveStage_cases s
  · omega
  · exact congrArg conclude raised

/-- SLICEB on an image that holds its region (R142). -/
theorem exec_sliceb_of_inside {s : State} (h : s.tileOffset.toNat + 0x220 ≤ s.rom.size) :
    ∃ bitmap : Vector Byte 512, (∀ i (h : i < 512), s.rom.byte? (s.tileOffset.toNat + 0x20 + i) = some bitmap[i]) ∧
      exec .sliceb s = .next (finish .ok 0#24 (s.setBitmap bitmap)) := by
  obtain ⟨-, bitmap, bytes, done⟩ | ⟨short, -⟩ := slicebStage_cases s
  · exact ⟨bitmap, bytes, congrArg conclude done⟩
  · omega

/-- SLICEP on an image that holds its region: each entry is its two bytes, the lower one first (R143). -/
theorem exec_slicep_of_inside {s : State} (h : s.tileOffset.toNat + 0x240 ≤ s.rom.size) :
    ∃ palette : Vector Hword 16,
      (∀ i (h : i < 16), ∃ b0 b1 : Byte, s.rom.byte? (s.tileOffset.toNat + 0x220 + 2 * i) = some b0 ∧
        s.rom.byte? (s.tileOffset.toNat + 0x220 + 2 * i + 1) = some b1 ∧ palette[i] = b1 ++ b0) ∧
      exec .slicep s = .next (finish .ok 0#24 (s.setPalette palette)) := by
  obtain ⟨-, palette, entries, done⟩ | ⟨short, -⟩ := slicepStage_cases s
  · exact ⟨palette, fun i hi => paletteEntry_eq_some.mp (entries i hi), congrArg conclude done⟩
  · omega

/-- Settles O21, by the two sides of 0x6C; the statement writes out the record that `finish` and `raise` leave. -/
theorem resolveTakesPointer : Obligations.ResolveTakesPointer :=
  fun _ => ⟨rfl, exec_resolve_of_inside, exec_resolve_of_short⟩

/-- Settles O22, by the two sides of `TILE_OFFSET` + 0x220. -/
theorem slicebCopiesBitmap : Obligations.SlicebCopiesBitmap :=
  fun _ => ⟨rfl, exec_sliceb_of_inside, exec_sliceb_of_short⟩

/-- Settles O23, by the two sides of `TILE_OFFSET` + 0x240. -/
theorem slicepCopiesPalette : Obligations.SlicepCopiesPalette :=
  fun _ => ⟨rfl, exec_slicep_of_inside, exec_slicep_of_short⟩

end Sys2Proof.Machine
end

section
/-! EXTRACT, whole (spec 44_extract_sequence.md R160 to R162): it succeeds exactly on an image that holds an icon, and then what
it leaves is that icon's and the operand's; on a shorter image it keeps what the stages before the failing one wrote. -/

namespace Sys2Proof.Machine

/-- The image holds an icon: a pointer, and where it points a bitmap and a palette (20_memory.md R48). -/
structure HoldsIcon (img : Image) (T : BitVec 32) (bitmap : Vector Byte 512) (palette : Vector Hword 16) : Prop where
  pointer : img.memRead 0x68 4 = some T.toNat
  bitmapBytes : ∀ i (h : i < 512), img.byte? (T.toNat + 0x20 + i) = some bitmap[i]
  paletteWords : ∀ i (h : i < 16), paletteEntry img T i = some palette[i]
  inside : T.toNat + 0x240 ≤ img.size

/-- The pointer in bytes, the lowest first. -/
theorem Image.memRead_pointer {img : Image} {b0 b1 b2 b3 : Byte} (h0 : img.byte? 0x68 = some b0)
    (h1 : img.byte? 0x69 = some b1) (h2 : img.byte? 0x6A = some b2) (h3 : img.byte? 0x6B = some b3) :
    img.memRead 0x68 4 = some (b3 ++ b2 ++ b1 ++ b0 : BitVec 32).toNat := by
  have read := Image.memRead_four.mpr ⟨b0, b1, b2, b3, h0, h1, h2, h3, rfl⟩
  rw [← pointer_value, BitVec.toNat_ofNat, Nat.mod_eq_of_lt (Image.memRead_four_lt read), read]

/-- A palette entry of the icon is two bytes, the lower one first. -/
theorem HoldsIcon.paletteBytes {img : Image} {T : BitVec 32} {bitmap : Vector Byte 512} {palette : Vector Hword 16}
    (h : HoldsIcon img T bitmap palette) (i : Nat) (hi : i < 16) :
    ∃ w0 w1 : Byte, img.byte? (T.toNat + 0x220 + 2 * i) = some w0 ∧ img.byte? (T.toNat + 0x220 + 2 * i + 1) = some w1 ∧
      palette[i] = w1 ++ w0 :=
  paletteEntry_eq_some.mp (h.paletteWords i hi)

/-- An image holds at most one icon. -/
theorem HoldsIcon.unique {img : Image} {T T' : BitVec 32} {bitmap bitmap' : Vector Byte 512}
    {palette palette' : Vector Hword 16} (h : HoldsIcon img T bitmap palette) (h' : HoldsIcon img T' bitmap' palette') :
    T = T' ∧ bitmap = bitmap' ∧ palette = palette' := by
  obtain rfl : T = T' := BitVec.eq_of_toNat_eq (Option.some.inj (h.pointer.symm.trans h'.pointer))
  exact ⟨rfl, Vector.ext fun i hi => Option.some.inj ((h.bitmapBytes i hi).symm.trans (h'.bitmapBytes i hi)),
    Vector.ext fun i hi => Option.some.inj ((h.paletteWords i hi).symm.trans (h'.paletteWords i hi))⟩

/-- EXTRACT leaves `STATUS.ERR` = 0 only when all its stages are done, and they are done only on an image that holds an icon. -/
theorem holdsIcon_of_exec_extract {n : BitVec 8} {s t : State} (h : exec (.extract n) s = .next t) (herr : t.err = 0#3) :
    ∃ T bitmap palette, HoldsIcon s.rom T bitmap palette ∧ t = finish .ok 0#24 (extracted n T bitmap palette s) := by
  have not_raised : ∀ u, extractStages n s ≠ .raised .outOfBounds u := fun u raised => by
    obtain rfl := Host.Outcome.next.inj (h.symm.trans (congrArg conclude raised))
    exact absurd herr (show codeErr .outOfBounds ≠ 0#3 by decide)
  obtain ⟨-, raised⟩ | ⟨v, -, hv, ⟨-, raised⟩ | ⟨bitmap, -, bytes, ⟨-, raised⟩ | ⟨palette, inside, entries, done⟩⟩⟩ :=
    extractStages_cases n s
  · exact absurd raised (not_raised _)
  · exact absurd raised (not_raised _)
  · exact absurd raised (not_raised _)
  · have value : (BitVec.ofNat 32 v).toNat = v := Nat.mod_eq_of_lt (Image.memRead_four_lt hv)
    exact ⟨_, bitmap, palette, ⟨hv.trans (congrArg some value.symm), bytes, entries, inside⟩,
      Host.Outcome.next.inj (h.symm.trans (congrArg conclude done))⟩

/-- EXTRACT on an image that holds an icon: the bounds checks let every stage through. -/
theorem exec_extract_of_inside (n : BitVec 8) {s : State} {T : BitVec 32} (hT : s.rom.memRead 0x68 4 = some T.toNat)
    (inside : T.toNat + 0x240 ≤ s.rom.size) :
    ∃ bitmap palette, HoldsIcon s.rom T bitmap palette ∧
      exec (.extract n) s = .next (finish .ok 0#24 (extracted n T bitmap palette s)) := by
  obtain ⟨u, done⟩ := extractStages_done (n := n) hT inside
  have next : exec (.extract n) s = .next (finish .ok 0#24 u) := congrArg conclude done
  obtain ⟨T', bitmap, palette, icon, hu⟩ := holdsIcon_of_exec_extract next rfl
  obtain rfl : T = T' := BitVec.eq_of_toNat_eq (Option.some.inj (hT.symm.trans icon.pointer))
  exact ⟨bitmap, palette, icon, hu ▸ next⟩

/-- EXTRACT on an image that ends before the pointer does: stage 1 raises, and nothing is written. -/
theorem exec_extract_of_short (n : BitVec 8) {s : State} (h : s.rom.size < 0x6C) :
    exec (.extract n) s = .next (raise .outOfBounds s) := by
  obtain ⟨-, raised⟩ | ⟨_, inside, -⟩ := extractStages_cases n s
  · exact congrArg conclude raised
  · omega

/-- The canvas of a successful EXTRACT: the closed form of UNPACK over a white canvas (R162). -/
theorem canvasRead_extracted {n : BitVec 8} (T : BitVec 32) (bitmap : Vector Byte 512) (palette : Vector Hword 16)
    (s : State) {col row : Nat} (hc : col < canvasSide n) (hr : row < canvasSide n) :
    canvasRead col row (finish .ok 0#24 (extracted n T bitmap palette s)) =
      some (pack (drawnOver palette
        (governingIndex (bitmap[governingByte (col / n.toNat) (row / n.toNat)]'
          (governingByte_lt (logical_lt hc) (logical_lt hr))) (col / n.toNat)) Config.background)) :=
  (canvasRead_of_lt ⟨hc, hr⟩).trans (congrArg (some <| pack ·) (readCell_unpackCanvas bitmap palette hc hr []))

/-- Settles O25: the icon gives the registers and the buffers, and the two cases of an index are the two of `drawnOver`. -/
theorem extractClosedForm : Obligations.ExtractClosedForm := by
  intro n s b0 b1 b2 b3 h0 h1 h2 h3 inside T
  obtain ⟨bitmap, palette, icon, next⟩ := exec_extract_of_inside n (Image.memRead_pointer h0 h1 h2 h3) inside
  refine ⟨_, next, rfl, icon.bitmapBytes, icon.paletteBytes, fun col row hc hr => ?_,
    fun a => read_unpackCanvas_outside bitmap palette n []⟩
  have cell := canvasRead_extracted (b3 ++ b2 ++ b1 ++ b0) bitmap palette s hc hr
  refine ⟨_, icon.bitmapBytes _ (governingByte_lt (logical_lt hc) (logical_lt hr)), fun hi => ?_, fun hi => ?_⟩
  · exact cell.trans <| congrArg (some <| pack ·) (if_pos hi)
  · obtain ⟨w0, w1, hw0, hw1, entry⟩ := icon.paletteBytes _ (governingIndex _ _).isLt
    exact ⟨w0, w1, hw0, hw1, cell.trans <| congrArg (some <| pack ·) <| (if_neg hi).trans (congrArg decodeColor entry)⟩

/-- Settles O26, by the stage that raises; the statement writes out the record that `raise` leaves. -/
theorem extractFailureKeepsCompletedStages : Obligations.ExtractFailureKeepsCompletedStages := by
  intro n s
  refine ⟨exec_extract_of_short n, fun b0 b1 b2 b3 h0 h1 h2 h3 => ?_⟩
  have pointer := Image.memRead_pointer h0 h1 h2 h3
  obtain ⟨last, -⟩ := Image.byte?_eq_some.mp h3
  generalize (b3 ++ b2 ++ b1 ++ b0 : BitVec 32) = T at pointer ⊢
  obtain ⟨short, -⟩ | ⟨v, -, hv, stages⟩ := extractStages_cases n s
  · omega
  · obtain rfl : T.toNat = v := Option.some.inj (pointer.symm.trans hv)
    rw [BitVec.ofNat_toNat, BitVec.setWidth_eq] at stages
    obtain ⟨short, raised⟩ | ⟨bitmap, inside, bytes, ⟨-, raised⟩ | ⟨-, whole, -⟩⟩ := stages
    · exact ⟨fun _ => congrArg conclude raised, fun inside => by omega⟩
    · exact ⟨fun short => by omega, fun _ _ => ⟨bitmap, bytes, congrArg conclude raised⟩⟩
    · exact ⟨fun short => by omega, fun _ short => by omega⟩

/-- Settles O27: both states see the one icon of their image. -/
theorem extractDependsOnImageAndScaleOnly : Obligations.ExtractDependsOnImageAndScaleOnly := by
  intro n s s' t hrom h herr
  obtain ⟨T, bitmap, palette, icon, rfl⟩ := holdsIcon_of_exec_extract h herr
  rw [← hrom] at icon
  obtain ⟨bitmap', palette', icon', next⟩ := exec_extract_of_inside n icon.pointer icon.inside
  obtain ⟨-, rfl, rfl⟩ := icon.unique icon'
  exact next.trans (congrArg _ (State.ext_fields rfl rfl rfl rfl rfl rfl rfl hrom rfl rfl))

/-- Settles O28: the second EXTRACT begins in another state with the same image. -/
theorem extractTwiceIsOnce : Obligations.ExtractTwiceIsOnce := by
  intro n s t h herr
  obtain ⟨T, bitmap, palette, -, ht⟩ := holdsIcon_of_exec_extract h herr
  have rom : t.rom = s.rom := by rw [ht]; rfl
  exact extractDependsOnImageAndScaleOnly n s t t rom h herr

end Sys2Proof.Machine
end

section
/-! No run stops: every action of the host ends in a next state, and so does the wait for one (spec 44_extract_sequence.md R163,
60_exceptions.md R180). -/

namespace Sys2Proof.Machine

/-- Every action of the host ends in a next state; that a command word does is part of `everyCommandResponds`. -/
theorem runInput_isNext (a : HostInput) (s : State) : ∃ t, runInput a s = .next t := by
  cases a with
  | command cmd =>
    obtain ⟨t, -, -, next, -⟩ := everyCommandResponds cmd s
    exact ⟨t, next⟩
  | attach length bytes => exact ⟨_, rfl⟩
  | reset => exact ⟨_, rfl⟩

theorem step_isNext (s : State) : ∃ t, step s = .next t := by
  cases h : s.inputs with
  | nil => exact ⟨s, step_of_no_input h⟩
  | cons a rest => exact step_of_input h ▸ runInput_isNext a _

/-- Settles O36, by induction on the number of steps. -/
theorem everyRunIsSafe : Obligations.EveryRunIsSafe := by
  intro n
  induction n with
  | zero => exact fun s => ⟨s, rfl⟩
  | succ n ih =>
    intro s
    obtain ⟨t, next⟩ := step_isNext s
    have first : Sys2Proof.core.step s = .next t := next
    obtain ⟨u, run⟩ := ih t
    exact ⟨u, by simp only [Host.Core.run, first]; exact run⟩

end Sys2Proof.Machine
end

section
/-! With no action of the host pending the block waits (spec 60_exceptions.md R194). -/

namespace Sys2Proof.Machine

/-- Settles O32: a step changes the state only by the host's next action, and here none is to come. -/
theorem stepWaitsWithNoInput : Obligations.StepWaitsWithNoInput :=
  fun _ noAction => step_of_no_input noAction

end Sys2Proof.Machine
end

section
/-! Reset from any state gives the block's state its reset values and leaves the image alone (spec 70_reset_and_hazards.md R200,
10_state.md R33). -/

namespace Sys2Proof.Machine

/-- Settles O33: the step applies reset, whose fields are those of `State.reset`; its values are `resetStateValues`, and its
scale 0 leaves the canvas no cells. -/
theorem stepAppliesReset : Obligations.StepAppliesReset := by
  intro s rest h
  obtain ⟨tileOffset, scale, color, err, bitmap, palette, -, -⟩ := resetStateValues
  exact ⟨_, step_of_input h, tileOffset, scale, color, err, bitmap, palette, canvasRead_of_scale_zero scale, rfl,
    rfl, rfl, rfl⟩

end Sys2Proof.Machine
end
